-- ==== Sys2Proof/Word.lean ====
section
/-! DEFINITION. The widths of the unit's values (00_scope.md R6, R7): 64-bit words, 32-bit outputs and command
words, the bytes and byte strings of the hash port, and the 4-bit fields of a command word. -/

namespace Sys2Proof

/-- A general register, a word of `S` or of `V` (`XLEN` = 64, R6, R21, R29, R31). -/
abbrev Word := BitVec 64

/-- A mixer output, an element of `O`, and a control register (R30, R33, R34). -/
abbrev Half := BitVec 32

/-- A command word (`CLEN` = 32, R7, R80). -/
abbrev Command := BitVec 32

/-- A byte of the hash message or of the digest (R58). -/
abbrev Byte := BitVec 8

/-- A 256-bit value as one number (`SLEN` = 256, R6, R37). -/
abbrev Word256 := BitVec 256

/-- A general register's number, `0..15` (`NREG` = 16, R21, R82). -/
abbrev RegIdx := Fin 16

/-- The selector field as the word holds it: four bits, of which only some values are legal (R81, R86). -/
abbrev Sel := Fin 16

/-- The immediate field (R85). -/
abbrev Imm16 := BitVec 16

/-- The 32 message bytes sent over the hash port, byte 0 first (R58, R62). -/
abbrev Message := Vector Byte 32

/-- The 32 digest bytes received over the hash port, byte 0 first (R58, R63). -/
abbrev Digest := Vector Byte 32

end Sys2Proof
end

