-- ==== Sys2Proof/Config.lean ====
section
/-! DEFINITION. What is fixed for the machine: doc00's constants (00_scope.md R6), the parameters the spec settles
but asks a model to carry by name (R7; 93_implementation_defined.md K9, K10, K13, K14), and the open hash function
(R8; K12) as a constant without a body. -/

namespace Sys2Proof.Config

/-- `MULT`, the mixer multiplier (R6, R141). -/
def mult : Word := 6364136223846793005

/-- `INC`, the mixer increment (R6, R141). -/
def inc : Word := 1442695040888963407

/-- `NAN`, the result of division by zero: the 64 bits of -0x7FFFFFFFFFFFFFFF (R6, R116, C6). -/
def nan : Word := 0x8000000000000001

/-- `FRAC`, the number of fraction bits of Q32.32 (R6, R110). -/
def frac : Nat := 32

/-- `PERM`: the word of the next seed that lane `i`'s final state becomes (R6, R160). -/
def perm : Fin 4 → Fin 4
  | 0 => 3
  | 1 => 2
  | 2 => 0
  | 3 => 1

/-- The two directions a rotate can have (K10, 90_conflicts.md C1). -/
inductive RotDir where
  | right
  | left
  deriving DecidableEq, Repr

/-- The two readings of which states of a lane feed the output function (K14, R162(a)). -/
inductive OutFrom where
  /-- The states after the first and after the second advance. -/
  | advanced
  /-- The seed word and the state after the first advance (the published generator's call order). -/
  | published
  deriving DecidableEq, Repr

/-- `DIV_WIDE` = true: the dividend of `DIV` is the unwrapped `a * 2^32` (R7, D9, K9). Assumption 7. -/
def divWide : Bool := true

/-- `ROT_DIR` = right (R7, C1, K10). Assumption 8. -/
def rotDir : RotDir := .right

/-- `OUT_FROM` = the advanced states t1 and t2 (R7, D13, K14). Assumption 9. -/
def outFrom : OutFrom := .advanced

/-- `NAN_ABSORBS` = false (R7, R119, D10, K13). Assumption 10. -/
def nanAbsorbs : Bool := false

/-- `H` left OPEN (R8, D14): some total function of the 32 message bytes, of which nothing is known.
No body: nothing can be proved of its values, so a claim about it is a claim for every `H`. Assumption 2. -/
opaque openHash : Message → Digest

end Sys2Proof.Config
end

