-- ==== Sys2Proof/Syntax.lean ====
section
/-! DEFINITION. The seventeen commands (30_encoding.md R83, R87; spec/opcode_table.json), one constructor for each
row of the opcode table. A selector is kept as the four bits of its field, so that a term can be out of range and
`Instr.wf` says which are not. -/

namespace Sys2Proof

/-- A command with its fields, in the order the assembler writes them (R92). -/
inductive Instr where
  /-- `FROMINT rd, rs1` (R112). -/
  | fromint (rd rs1 : RegIdx)
  /-- `ADD rd, rs1, rs2` (R113). -/
  | add (rd rs1 rs2 : RegIdx)
  /-- `SUB rd, rs1, rs2` (R114). -/
  | sub (rd rs1 rs2 : RegIdx)
  /-- `MUL rd, rs1, rs2` (R115). -/
  | mul (rd rs1 rs2 : RegIdx)
  /-- `DIV rd, rs1, rs2` (R116). -/
  | div (rd rs1 rs2 : RegIdx)
  /-- `ADV rd, rs1` (R142). -/
  | adv (rd rs1 : RegIdx)
  /-- `OUT rd, rs1` (R143). -/
  | out (rd rs1 : RegIdx)
  /-- `ROTR32 rd, rs1, rs2` (R145). -/
  | rotr32 (rd rs1 rs2 : RegIdx)
  /-- `ROTR64 rd, rs1, rs2` (R146). -/
  | rotr64 (rd rs1 rs2 : RegIdx)
  /-- `CHAIN` (R160). -/
  | chain
  /-- `RDS rd, s<sel>` (R164). -/
  | rds (rd : RegIdx) (sel : Sel)
  /-- `WRS s<sel>, rs1` (R165). -/
  | wrs (sel : Sel) (rs1 : RegIdx)
  /-- `RDV rd, v<sel>` (R166). -/
  | rdv (rd : RegIdx) (sel : Sel)
  /-- `RDO rd, o<sel>` (R167). -/
  | rdo (rd : RegIdx) (sel : Sel)
  /-- `LI rd, imm` (R190). -/
  | li (rd : RegIdx) (imm : Imm16)
  /-- `LSI rd, imm` (R191). -/
  | lsi (rd : RegIdx) (imm : Imm16)
  /-- `MV rd, rs1` (R192). -/
  | mv (rd rs1 : RegIdx)
  deriving DecidableEq, Repr

end Sys2Proof
end

