-- ==== Sys2Proof/WellFormed.lean ====
section
/-! DEFINITION. Which terms of `Instr` are commands of the unit: register fields and immediates are always legal
(30_encoding.md R82, R85), a selector must be in its command's range (R86). -/

namespace Sys2Proof

/-- The command's selector is in range: `0..3` for `RDS`, `WRS`, `RDV`, `0..7` for `RDO` (R86). -/
def Instr.wf : Instr → Bool
  | .fromint _ _ => true
  | .add _ _ _ => true
  | .sub _ _ _ => true
  | .mul _ _ _ => true
  | .div _ _ _ => true
  | .adv _ _ => true
  | .out _ _ => true
  | .rotr32 _ _ _ => true
  | .rotr64 _ _ _ => true
  | .chain => true
  | .rds _ sel => decide (sel.val ≤ 3)
  | .wrs sel _ => decide (sel.val ≤ 3)
  | .rdv _ sel => decide (sel.val ≤ 3)
  | .rdo _ sel => decide (sel.val ≤ 7)
  | .li _ _ => true
  | .lsi _ _ => true
  | .mv _ _ => true

end Sys2Proof
end

