-- ==== Sys2Proof/Decode.lean ====
section
/-! DEFINITION. From a 32-bit command word to a command or a decode fault, and back (30_encoding.md R80 to R91). -/

namespace Sys2Proof

/-- The six formats (R83). -/
inductive Format where
  | r3
  | r2
  | i
  | rs
  | ws
  | n
  deriving DecidableEq, Repr

/-- The must-be-zero bits of a format (R84). -/
def Format.zmask : Format → Command
  | .r3 => 0x00000FFF
  | .r2 => 0x0000FFFF
  | .i => 0x000F0000
  | .rs => 0x000F0FFF
  | .ws => 0x00F00FFF
  | .n => 0x00FFFFFF

/-- The seventeen assigned opcodes (R87). -/
inductive Opcode where
  | fromint
  | add
  | sub
  | mul
  | div
  | adv
  | out
  | rotr32
  | rotr64
  | chain
  | rds
  | wrs
  | rdv
  | rdo
  | li
  | lsi
  | mv
  deriving DecidableEq, Repr

/-- All rows of the opcode map, in its order (R87). -/
def Opcode.all : List Opcode :=
  [.fromint, .add, .sub, .mul, .div, .adv, .out, .rotr32, .rotr64, .chain, .rds, .wrs, .rdv, .rdo, .li, .lsi, .mv]

/-- The `op` byte of a command (R87). -/
def Opcode.code : Opcode → BitVec 8
  | .fromint => 0x10
  | .add => 0x11
  | .sub => 0x12
  | .mul => 0x13
  | .div => 0x14
  | .adv => 0x20
  | .out => 0x21
  | .rotr32 => 0x22
  | .rotr64 => 0x23
  | .chain => 0x30
  | .rds => 0x31
  | .wrs => 0x32
  | .rdv => 0x33
  | .rdo => 0x34
  | .li => 0x40
  | .lsi => 0x41
  | .mv => 0x42

/-- The format of a command (R83, R87). -/
def Opcode.format : Opcode → Format
  | .fromint => .r2
  | .add => .r3
  | .sub => .r3
  | .mul => .r3
  | .div => .r3
  | .adv => .r2
  | .out => .r2
  | .rotr32 => .r3
  | .rotr64 => .r3
  | .chain => .n
  | .rds => .rs
  | .wrs => .ws
  | .rdv => .rs
  | .rdo => .rs
  | .li => .i
  | .lsi => .i
  | .mv => .r2

/-- The largest legal selector: 3 for `RDS`, `WRS`, `RDV`, 7 for `RDO` (R86); 15, no restriction, for a command
that has no selector, whose bits 15..12 are another field (R88's third test is for formats RS and WS only). -/
def Opcode.selMax : Opcode → Nat
  | .rds => 3
  | .wrs => 3
  | .rdv => 3
  | .rdo => 7
  | .fromint => 15
  | .add => 15
  | .sub => 15
  | .mul => 15
  | .div => 15
  | .adv => 15
  | .out => 15
  | .rotr32 => 15
  | .rotr64 => 15
  | .chain => 15
  | .li => 15
  | .lsi => 15
  | .mv => 15

/-- The `match` column of the opcode map, as R87 prints it. -/
def Opcode.matchWord : Opcode → Command
  | .fromint => 0x10000000
  | .add => 0x11000000
  | .sub => 0x12000000
  | .mul => 0x13000000
  | .div => 0x14000000
  | .adv => 0x20000000
  | .out => 0x21000000
  | .rotr32 => 0x22000000
  | .rotr64 => 0x23000000
  | .chain => 0x30000000
  | .rds => 0x31000000
  | .wrs => 0x32000000
  | .rdv => 0x33000000
  | .rdo => 0x34000000
  | .li => 0x40000000
  | .lsi => 0x41000000
  | .mv => 0x42000000

/-- The `mask` column of the opcode map, as R87 prints it. -/
def Opcode.maskWord : Opcode → Command
  | .fromint => 0xFF00FFFF
  | .add => 0xFF000FFF
  | .sub => 0xFF000FFF
  | .mul => 0xFF000FFF
  | .div => 0xFF000FFF
  | .adv => 0xFF00FFFF
  | .out => 0xFF00FFFF
  | .rotr32 => 0xFF000FFF
  | .rotr64 => 0xFF000FFF
  | .chain => 0xFFFFFFFF
  | .rds => 0xFF0FCFFF
  | .wrs => 0xFFF0CFFF
  | .rdv => 0xFF0FCFFF
  | .rdo => 0xFF0F8FFF
  | .li => 0xFF0F0000
  | .lsi => 0xFF0F0000
  | .mv => 0xFF00FFFF

/-- The three causes of a fault (60_exceptions.md R200). -/
inductive DecodeFault where
  /-- The opcode is not assigned. -/
  | illegalOpcode
  /-- A must-be-zero bit is one. -/
  | reservedField
  /-- The selector is out of range. -/
  | selectorRange
  deriving DecidableEq, Repr

/-- The cause code (R200). -/
def DecodeFault.code : DecodeFault → BitVec 4
  | .illegalOpcode => 1
  | .reservedField => 2
  | .selectorRange => 3

/-- What decoding a word gives: a command with its fields, or a fault with its cause (R88). -/
inductive Decoded where
  | command (i : Instr)
  | fault (c : DecodeFault)
  deriving DecidableEq, Repr

/-- The `op` field, bits 31..24 (R81). -/
def opField (w : Command) : BitVec 8 := w.extractLsb' 24 8

/-- A four-bit field with its low end at bit `lo` (R81, R82). -/
def nibble (w : Command) (lo : Nat) : Fin 16 := Fin.ofNat 16 (w.extractLsb' lo 4).toNat

/-- The `rd` field, bits 23..20 (R81). -/
def rdField (w : Command) : RegIdx := nibble w 20

/-- The `rs1` field, bits 19..16 (R81). -/
def rs1Field (w : Command) : RegIdx := nibble w 16

/-- The `rs2` field, bits 15..12 (R81). -/
def rs2Field (w : Command) : RegIdx := nibble w 12

/-- The `sel` field, the same bits as `rs2` (R81). -/
def selField (w : Command) : Sel := nibble w 12

/-- The `imm16` field, bits 15..0, as they stand (R81, R85). -/
def immField (w : Command) : Imm16 := w.extractLsb' 0 16

/-- The assigned opcode with this `op` byte, if there is one (R87, R89). -/
def Opcode.ofCode (b : BitVec 8) : Option Opcode := Opcode.all.find? fun o => o.code == b

/-- The command of an opcode with its fields taken from the word (R88, last line). -/
def Opcode.build (o : Opcode) (w : Command) : Instr :=
  match o with
  | .fromint => .fromint (rdField w) (rs1Field w)
  | .add => .add (rdField w) (rs1Field w) (rs2Field w)
  | .sub => .sub (rdField w) (rs1Field w) (rs2Field w)
  | .mul => .mul (rdField w) (rs1Field w) (rs2Field w)
  | .div => .div (rdField w) (rs1Field w) (rs2Field w)
  | .adv => .adv (rdField w) (rs1Field w)
  | .out => .out (rdField w) (rs1Field w)
  | .rotr32 => .rotr32 (rdField w) (rs1Field w) (rs2Field w)
  | .rotr64 => .rotr64 (rdField w) (rs1Field w) (rs2Field w)
  | .chain => .chain
  | .rds => .rds (rdField w) (selField w)
  | .wrs => .wrs (selField w) (rs1Field w)
  | .rdv => .rdv (rdField w) (selField w)
  | .rdo => .rdo (rdField w) (selField w)
  | .li => .li (rdField w) (immField w)
  | .lsi => .lsi (rdField w) (immField w)
  | .mv => .mv (rdField w) (rs1Field w)

/-- Decoding, total, reading no state: the three tests in the order that is also the fault priority (R88, R206). -/
def decode (w : Command) : Decoded :=
  match Opcode.ofCode (opField w) with
  | none => .fault .illegalOpcode
  | some o =>
    if w &&& o.format.zmask ≠ 0 then .fault .reservedField
    else if o.selMax < (selField w).val then .fault .selectorRange
    else .command (o.build w)

/-- A register number or selector as the four bits of its field (R82). -/
def field4 (r : Fin 16) : BitVec 4 := BitVec.ofNat 4 r.val

/-- The layout `op rd rs1 rs2 000`, most significant first (R81, R83). -/
def layout (op : BitVec 8) (d a b : BitVec 4) : Command := op ++ d ++ a ++ b ++ (0 : BitVec 12)

/-- The layout `op rd 0 imm16` of format I (R81, R83). -/
def layoutImm (op : BitVec 8) (d : BitVec 4) (imm : Imm16) : Command := op ++ d ++ (0 : BitVec 4) ++ imm

/-- The word of a command, from the patterns of R83 and the opcodes of R87. -/
def encode : Instr → Command
  | .fromint rd rs1 => layout Opcode.fromint.code (field4 rd) (field4 rs1) 0
  | .add rd rs1 rs2 => layout Opcode.add.code (field4 rd) (field4 rs1) (field4 rs2)
  | .sub rd rs1 rs2 => layout Opcode.sub.code (field4 rd) (field4 rs1) (field4 rs2)
  | .mul rd rs1 rs2 => layout Opcode.mul.code (field4 rd) (field4 rs1) (field4 rs2)
  | .div rd rs1 rs2 => layout Opcode.div.code (field4 rd) (field4 rs1) (field4 rs2)
  | .adv rd rs1 => layout Opcode.adv.code (field4 rd) (field4 rs1) 0
  | .out rd rs1 => layout Opcode.out.code (field4 rd) (field4 rs1) 0
  | .rotr32 rd rs1 rs2 => layout Opcode.rotr32.code (field4 rd) (field4 rs1) (field4 rs2)
  | .rotr64 rd rs1 rs2 => layout Opcode.rotr64.code (field4 rd) (field4 rs1) (field4 rs2)
  | .chain => layout Opcode.chain.code 0 0 0
  | .rds rd sel => layout Opcode.rds.code (field4 rd) 0 (field4 sel)
  | .wrs sel rs1 => layout Opcode.wrs.code 0 (field4 rs1) (field4 sel)
  | .rdv rd sel => layout Opcode.rdv.code (field4 rd) 0 (field4 sel)
  | .rdo rd sel => layout Opcode.rdo.code (field4 rd) 0 (field4 sel)
  | .li rd imm => layoutImm Opcode.li.code (field4 rd) imm
  | .lsi rd imm => layoutImm Opcode.lsi.code (field4 rd) imm
  | .mv rd rs1 => layout Opcode.mv.code (field4 rd) (field4 rs1) 0

/-- The opcode of a command (R87). -/
def Instr.opcode : Instr → Opcode
  | .fromint _ _ => .fromint
  | .add _ _ _ => .add
  | .sub _ _ _ => .sub
  | .mul _ _ _ => .mul
  | .div _ _ _ => .div
  | .adv _ _ => .adv
  | .out _ _ => .out
  | .rotr32 _ _ _ => .rotr32
  | .rotr64 _ _ _ => .rotr64
  | .chain => .chain
  | .rds _ _ => .rds
  | .wrs _ _ => .wrs
  | .rdv _ _ => .rdv
  | .rdo _ _ => .rdo
  | .li _ _ => .li
  | .lsi _ _ => .lsi
  | .mv _ _ => .mv

/-- A word numbered as spec/opcode_table.json numbers its bits: one 32-bit command word (R80), the bits from
`nbits` up being zero. A command word has no byte order of its own. -/
def tableWord (nbits w : Nat) : Command := BitVec.ofNat 32 (w % 2 ^ nbits)

/-- The command the decoder reads from a word of the opcode table; none where it faults. -/
def decodeTableWord (nbits w : Nat) : Option Instr :=
  match decode (tableWord nbits w) with
  | .command i => some i
  | .fault _ => none

end Sys2Proof
end

