-- ==== Sys2Proof/Machine/State.lean ====
section
/-! DEFINITION. The state of the unit (10_state.md R20 to R37) with the model's own frame around it: the host's
moves still to come and what the host has read (20_memory.md R54), the hash engine's kind (R58, R60), the command
index of a run (R27) and the written marks (R32). -/

namespace Sys2Proof.Machine

/-- The five index spaces of the host port (R51). -/
inductive Space where
  | X
  | S
  | V
  | O
  | CSR
  deriving DecidableEq, Repr

/-- The host's moves (R54). `read` and `write` take any space and index, so that a move the port does not have
(R55) is a term too, which the machine refuses. A value written has 64 bits: only `X` and `S` can be written. -/
inductive HostMove where
  /-- `HostRead(space, i)`. -/
  | read (space : Space) (i : Nat)
  /-- `HostWrite(space, i, v)`. -/
  | write (space : Space) (i : Nat) (v : Word)
  /-- `Issue(cmd)`: one command port transaction (R53). -/
  | issue (w : Command)
  /-- `Reset` (R230). -/
  | reset
  deriving DecidableEq, Repr

/-- A value the host has read, at the width of its space (R51, R66). -/
inductive ReadValue where
  | wide (v : Word)
  | narrow (v : Half)
  deriving DecidableEq, Repr

/-- What stands behind the hash port (R52, R58, R60, K8, K12); no command and no host move changes it (R234).
Assumptions 2 and 3. -/
inductive HashEngine where
  /-- `H` = Keccak-256, the default instance (G5). -/
  | keccak256
  /-- Some other total function, of which nothing is known (R8): `Config.openHash`. -/
  | other
  /-- An engine that never answers (R60, R243, K8). -/
  | silent
  deriving DecidableEq, Repr

/-- The "written" mark of every data word (R32): the model's bookkeeping, not hardware state. -/
structure Written where
  x : Vector Bool 16
  S : Vector Bool 4
  O : Vector Bool 8
  V : Vector Bool 4
  deriving DecidableEq, Repr

/-- Why the machine stands still. -/
inductive Fault where
  /-- Raised by `step` when the unit waits inside a `CHAIN` for a hash engine that never answers and the host's
  next move is not `Reset`: the treatment "stuck" of K8 (R60, R243). SAFE: the hardware does not go on either. -/
  | hashEngineSilent
  deriving DecidableEq, Repr

/-- Why the machine gives a move no step. -/
inductive Refusal where
  /-- Raised by an arm of `exec` whose instruction has no meaning yet. SAFE: nothing follows from it. -/
  | notModelled (mnemonic : String)
  /-- Raised by the host port's read and write for a move the port does not have: a write to `V`, `O` or `CSR`,
  or an index outside R51's table (R55, K7). SAFE: the model has no such step. -/
  | noSuchHostMove
  /-- Raised by the host port's read and write while a command is in progress (R54, R240, K7). SAFE: the model has
  no such step. -/
  | hostAccessWhileBusy
  deriving DecidableEq, Repr

/-- The unit's registers, and the model's frame. Every field is plain data. -/
structure State where
  /-- The general registers `x[0..15]` (R21). -/
  x : Vector Word 16
  /-- The RNG state (seed) `S[0..3]` (R29). -/
  S : Vector Word 4
  /-- The last draw's mixer outputs `O[0..7]` (R30). -/
  O : Vector Half 8
  /-- The last draw's random value `V[0..3]` (R31). -/
  V : Vector Word 4
  /-- `STATUS`: `FAULT` in bit 0, `CAUSE` in bits 7..4, the rest hardwired 0 (R33). -/
  status : Half
  /-- `FCMD`: the command word that faulted (R34). -/
  fcmd : Command
  /-- A command is in progress: a `CHAIN` waits for its digest (R53, R60, R161). -/
  busy : Bool
  /-- The hash engine behind the hash port. -/
  engine : HashEngine
  /-- The written marks (R32). -/
  written : Written
  /-- The command index of a run (R27). -/
  ci : Nat
  /-- The host's moves still to come, the next one first (R54, R67). -/
  host : List HostMove
  /-- What the host has read, oldest first (R54). -/
  received : List ReadValue
  deriving DecidableEq, Repr

/-- No word is written (R32, R36). -/
def Written.none : Written where
  x := Vector.replicate 16 false
  S := Vector.replicate 4 false
  O := Vector.replicate 8 false
  V := Vector.replicate 4 false

/-- The unit right after reset (R36, R230): `STATUS` and `FCMD` zero, idle, every data word unwritten. The spec gives
the data words no value; each holds zero here (DESIGN CHOICE, assumption 1, UNSAFE) and its mark says that it is not
written. No host move is pending and the engine is the default instance (assumption 3). -/
def State.reset : State where
  x := Vector.replicate 16 0
  S := Vector.replicate 4 0
  O := Vector.replicate 8 0
  V := Vector.replicate 4 0
  status := 0
  fcmd := 0
  busy := false
  engine := .keccak256
  written := Written.none
  ci := 0
  host := []
  received := []

end Sys2Proof.Machine
end

