-- ==== Sys2Proof/Machine/Flags.lean ====
section
/-! DEFINITION. The fields of `STATUS` (10_state.md R33). The unit has no flag that a result can set: no carry,
overflow, zero, sign or divide-by-zero flag (R28), so there is no flag computation beside these. -/

namespace Sys2Proof.Machine

/-- `STATUS.FAULT`, bit 0 (R33). -/
def State.faulted (s : State) : Bool := s.status.getLsbD 0

/-- `STATUS.CAUSE`, bits 7..4 (R33). -/
def State.cause (s : State) : BitVec 4 := s.status.extractLsb' 4 4

/-- The output `fault`, equal to `STATUS.FAULT` at all times (R72). -/
def State.faultPin (s : State) : Bool := s.faulted

/-- `STATUS` with `FAULT` = 1 and this cause, all other bits hardwired 0 (R33, R203). -/
def statusWord (cause : BitVec 4) : Half := (0 : BitVec 24) ++ cause ++ (1 : BitVec 4)

end Sys2Proof.Machine
end

