-- ==== Sys2Proof/Machine/Operands.lean ====
section
/-! DEFINITION. Operands: the readings of a bit vector (00_scope.md R11, R12), the reads and writes of general
registers and of the RNG files (10_state.md R22, R23, R26), and the selectors (30_encoding.md R86). -/

namespace Sys2Proof.Machine

/-- `wrap_64(z)`: the 64 bits of `z mod 2^64` (R11). -/
def wrap64 (z : Int) : Word := BitVec.ofInt 64 z

/-- `sext_64(v)` of a 16-bit field: the same signed value in 64 bits (R12, R85). -/
def sext64 (v : Imm16) : Word := BitVec.ofInt 64 v.toInt

/-- `zext_64(v)` of a 32-bit result: bits 63..32 zero (R12, R26). -/
def zext64 (v : Half) : Word := (0 : BitVec 32) ++ v

/-- Read of `x[r]`; no register is hardwired (R24). -/
def State.readX (s : State) (r : RegIdx) : Word := s.x[r]

/-- Write of `x[r]`, which marks it written (R12, R24, R32). -/
def State.writeX (s : State) (r : RegIdx) (v : Word) : State :=
  { s with x := s.x.set r v, written := { s.written with x := s.written.x.set r true } }

/-- Write of `S[w]`, which marks it written (R12, R32). -/
def State.writeS (s : State) (w : Fin 4) (v : Word) : State :=
  { s with S := s.S.set w v, written := { s.written with S := s.written.S.set w true } }

/-- The word of `S` or `V` a selector picks: `0..3` (R86). -/
def wordSel (sel : Sel) : Option (Fin 4) := if h : sel.val < 4 then some ⟨sel.val, h⟩ else none

/-- The output a selector picks: `0..7` (R86). -/
def outSel (sel : Sel) : Option (Fin 8) := if h : sel.val < 8 then some ⟨sel.val, h⟩ else none

end Sys2Proof.Machine
end

