-- ==== Sys2Proof/Machine/Ops.lean ====
section
/-! DEFINITION. The shared operations on the state: taking a fault (60_exceptions.md R203) and the only way out of
it, reset (R208; 70_reset_and_hazards.md R230); the write of a whole draw (42_hashchain.md R160, R161); the end of a
command (10_state.md R27). -/

namespace Sys2Proof.Machine

/-- Fault entry: `CAUSE` and `FAULT` are set, the word is recorded, nothing else changes; there is no handler, no
saved program counter and no mode (R203). -/
def State.takeFault (s : State) (c : DecodeFault) (w : Command) : State :=
  { s with status := statusWord c.code, fcmd := w }

/-- A command whose selector is out of range raises `SelectorRange` with its own word (R86, R200). The decoder
finds it before `exec` runs (R88), so no step comes here. -/
def selectorFault (i : Instr) (s : State) : Host.Outcome State Fault Refusal :=
  .next (s.takeFault .selectorRange (encode i))

/-- There is no return from a fault: only reset leaves the faulted state (R208). Reset gives the reset state whatever
the unit was doing, a command in progress included (R230, R231); the host and the hash engine are no part of the unit
and keep what they have, and the command index starts again (R36, assumption 6). -/
def State.afterReset (s : State) : State :=
  { State.reset with engine := s.engine, host := s.host, received := s.received }

/-- The marks after a draw: every word of `O`, `V` and `S` is written (R32). -/
def Written.drawn (m : Written) : Written :=
  { m with O := Vector.replicate 8 true, V := Vector.replicate 4 true, S := Vector.replicate 4 true }

/-- The writes of `CHAIN`, all together: `O`, `V` and `S` (R160, R161). -/
def State.writeDraw (s : State) (o : Vector Half 8) (v seed : Vector Word 4) : State :=
  { s with O := o, V := v, S := seed, written := s.written.drawn }

/-- A `CHAIN` whose digest does not come: the unit is in the middle of the command, nothing is written (R60, R161). -/
def State.awaitDigest (s : State) : State := { s with busy := true }

/-- A command that completes without a fault advances the command index (R27). -/
def State.commandDone (s : State) : State :=
  if s.busy || s.faulted then s else { s with ci := s.ci + 1 }

/-- The host has made its next move (R67). -/
def State.moveMade (s : State) : State := { s with host := s.host.tail }

/-- The host receives a value it has read (R54). -/
def State.receive (s : State) (v : ReadValue) : State := { s with received := s.received ++ [v] }

end Sys2Proof.Machine
end

