-- ==== Sys2Proof/Machine/BitMixer.lean ====
section
/-! DEFINITION. The bit mixer (41_bitmixer.md R140 to R148): ADV, OUT, ROTR32, ROTR64, and the functions `CHAIN`
uses. -/

namespace Sys2Proof.Machine

/-- `advance_state`: multiply and add, wrapping (R142). -/
def adv (s : Word) : Word := s * Config.mult + Config.inc

/-- `rotrW(v, n)`: rotation to the right by `n mod W`, never shifting by the full width (R144). -/
def rotrW {W : Nat} (v : BitVec W) (n : Nat) : BitVec W :=
  let m := n % W
  if m = 0 then v else (v >>> m) ||| (v <<< (W - m))

/-- The body doc00 prints, which rotates to the left: the reading C1 rejects (R144, K10). -/
def rotlW {W : Nat} (v : BitVec W) (n : Nat) : BitVec W :=
  let m := n % W
  if m = 0 then v else (v <<< m) ||| (v >>> (W - m))

/-- The rotate of both widths in a direction (R7, K10). -/
def rotate (d : Config.RotDir) {W : Nat} (v : BitVec W) (n : Nat) : BitVec W :=
  match d with
  | .right => rotrW v n
  | .left => rotlW v n

/-- `rng_value` before its rotation: `(((s >> 18) ^ s) >> 27)`, the low 32 bits (R143). -/
def xorShifted (s : Word) : Half := (((s >>> 18) ^^^ s) >>> 27).extractLsb' 0 32

/-- The rotation count of `rng_value`: the state's top five bits (R143). -/
def rotCount (s : Word) : Nat := (s.extractLsb' 59 5).toNat

/-- `rng_value`: the 32-bit output of a mixer state, before zero-extension (R143). -/
def mixOut (d : Config.RotDir) (s : Word) : Half := rotate d (xorShifted s) (rotCount s)

/-- ADV (R142). -/
def execAdv (rd rs1 : RegIdx) (s : State) : Host.Outcome State Fault Refusal :=
  .next (s.writeX rd (adv (s.readX rs1)))

/-- OUT (R143). -/
def execOut (rd rs1 : RegIdx) (s : State) : Host.Outcome State Fault Refusal :=
  .next (s.writeX rd (zext64 (mixOut Config.rotDir (s.readX rs1))))

/-- ROTR32: the low 32 bits of `x[rs1]` by the low 5 bits of `x[rs2]` (R145). -/
def execRotr32 (rd rs1 rs2 : RegIdx) (s : State) : Host.Outcome State Fault Refusal :=
  .next (s.writeX rd
    (zext64 (rotate Config.rotDir ((s.readX rs1).extractLsb' 0 32) ((s.readX rs2).extractLsb' 0 5).toNat)))

/-- ROTR64: all of `x[rs1]` by the low 6 bits of `x[rs2]` (R146). -/
def execRotr64 (rd rs1 rs2 : RegIdx) (s : State) : Host.Outcome State Fault Refusal :=
  .next (s.writeX rd (rotate Config.rotDir (s.readX rs1) ((s.readX rs2).extractLsb' 0 6).toNat))

end Sys2Proof.Machine
end

