-- ==== Sys2Proof/Machine/FixedPoint.lean ====
section
/-! DEFINITION. The Q32.32 arithmetic (40_fixedpoint.md R110 to R121): FROMINT, ADD, SUB, MUL, DIV. -/

namespace Sys2Proof.Machine

/-- The real number a register stands for as a Q32.32 value, `s(r) / 2^32` (R110). -/
def fxValue (r : Word) : ℚ := (r.toInt : ℚ) / 2 ^ Config.frac

/-- `from_int(n)`: a wrapping shift left by 32 (R112). -/
def fromInt (n : Word) : Word := n <<< Config.frac

/-- Wrapping addition (R113). -/
def fxAdd (a b : Word) : Word := a + b

/-- Wrapping subtraction (R114). -/
def fxSub (a b : Word) : Word := a - b

/-- `mul(a, b)`: the exact signed product, shifted right arithmetically by 32, its low 64 bits (R115). -/
def fxMul (a b : Word) : Word := wrap64 ((a.toInt * b.toInt) >>> Config.frac)

/-- The dividend of `div`: `a * 2^32` exact, or wrapped to 64 bits in the reading the spec rejects (R116, D9, K9). -/
def dividend (wide : Bool) (a : Word) : Int :=
  if wide then a.toInt * 2 ^ Config.frac else (a <<< Config.frac).toInt

/-- `div(a, b)`: the sentinel for a zero divisor, else the quotient truncated toward zero, its low 64 bits (R116). -/
def fxDiv (wide : Bool) (a b : Word) : Word :=
  if b = 0 then Config.nan else wrap64 ((dividend wide a).tdiv b.toInt)

/-- Whether a result gives way to the sentinel because an operand is the sentinel: with `on` = false, the spec's
unit, never (R119, D10, K13). -/
def nanOr (on : Bool) (operands : List Word) (result : Word) : Word :=
  if on && operands.contains Config.nan then Config.nan else result

/-- FROMINT (R112). -/
def execFromint (rd rs1 : RegIdx) (s : State) : Host.Outcome State Fault Refusal :=
  .next (s.writeX rd (nanOr Config.nanAbsorbs [s.readX rs1] (fromInt (s.readX rs1))))

/-- ADD (R113). -/
def execAdd (rd rs1 rs2 : RegIdx) (s : State) : Host.Outcome State Fault Refusal :=
  .next (s.writeX rd
    (nanOr Config.nanAbsorbs [s.readX rs1, s.readX rs2] (fxAdd (s.readX rs1) (s.readX rs2))))

/-- SUB (R114). -/
def execSub (rd rs1 rs2 : RegIdx) (s : State) : Host.Outcome State Fault Refusal :=
  .next (s.writeX rd
    (nanOr Config.nanAbsorbs [s.readX rs1, s.readX rs2] (fxSub (s.readX rs1) (s.readX rs2))))

/-- MUL (R115). -/
def execMul (rd rs1 rs2 : RegIdx) (s : State) : Host.Outcome State Fault Refusal :=
  .next (s.writeX rd
    (nanOr Config.nanAbsorbs [s.readX rs1, s.readX rs2] (fxMul (s.readX rs1) (s.readX rs2))))

/-- DIV (R116). -/
def execDiv (rd rs1 rs2 : RegIdx) (s : State) : Host.Outcome State Fault Refusal :=
  .next (s.writeX rd
    (nanOr Config.nanAbsorbs [s.readX rs1, s.readX rs2] (fxDiv Config.divWide (s.readX rs1) (s.readX rs2))))

end Sys2Proof.Machine
end

