-- ==== Sys2Proof/Machine/HashPort.lean ====
section
/-! DEFINITION. The hash port and the engine behind it (20_memory.md R58 to R60): an open function (00_scope.md R8),
the default instance Keccak-256 of a 32-byte message (93_implementation_defined.md G5; the algorithm as the script of
95_test_vectors.md's appendix writes it), or an engine that never answers (K8). The unit itself computes no hash. -/

namespace Sys2Proof.Machine.Keccak

/-- The 25 lanes of Keccak-f[1600]; the lane at `(x, y)` has number `x + 5 * y`. -/
abbrev Lanes := Vector Word 25

/-- The lane at `(x, y)`, both taken modulo 5. -/
def lane (A : Lanes) (x y : Nat) : Word := A[x % 5 + 5 * (y % 5)]'(by omega)

/-- Rotation of a lane to the left by less than 64. -/
def rotl (v : Word) (n : Nat) : Word := if n = 0 then v else (v <<< n) ||| (v >>> (64 - n))

/-- The exclusive-or of a column. -/
def column (A : Lanes) (x : Nat) : Word :=
  lane A x 0 ^^^ lane A x 1 ^^^ lane A x 2 ^^^ lane A x 3 ^^^ lane A x 4

/-- The step theta. -/
def theta (A : Lanes) : Lanes :=
  let C : Vector Word 5 := Vector.ofFn fun x => column A x.val
  Vector.ofFn fun k =>
    A[k] ^^^ C[(k.val % 5 + 4) % 5]'(by omega) ^^^ rotl (C[(k.val % 5 + 1) % 5]'(by omega)) 1

/-- The rotation counts of the step rho, by lane number. -/
def rhoCounts : Vector Nat 25 :=
  #v[0, 1, 62, 28, 27, 36, 44, 6, 55, 20, 3, 10, 43, 25, 39, 41, 45, 15, 21, 8, 18, 2, 61, 56, 14]

/-- The steps rho and pi: the lane at `(x, y)`, rotated, goes to `(y, 2x + 3y)`; read backwards, the lane at
`(X, Y)` comes from `(X + 3Y, X)`. -/
def rhoPi (A : Lanes) : Lanes :=
  Vector.ofFn fun k =>
    let x := (k.val % 5 + 3 * (k.val / 5)) % 5
    let y := k.val % 5
    rotl (lane A x y) (rhoCounts[x + 5 * y]'(by omega))

/-- The step chi. -/
def chi (B : Lanes) : Lanes :=
  Vector.ofFn fun k =>
    B[k] ^^^ (~~~ lane B (k.val % 5 + 1) (k.val / 5) &&& lane B (k.val % 5 + 2) (k.val / 5))

/-- One round with its constant. -/
def roundStep (A : Lanes) (c : Word) : Lanes :=
  let B := chi (rhoPi (theta A))
  B.set 0 (B[0] ^^^ c)

/-- The 24 round constants. -/
def roundConstants : List Word :=
  [0x0000000000000001, 0x0000000000008082, 0x800000000000808A, 0x8000000080008000,
   0x000000000000808B, 0x0000000080000001, 0x8000000080008081, 0x8000000000008009,
   0x000000000000008A, 0x0000000000000088, 0x0000000080008009, 0x000000008000000A] ++
  [0x000000008000808B, 0x800000000000008B, 0x8000000000008089, 0x8000000000008003,
   0x8000000000008002, 0x8000000000000080, 0x000000000000800A, 0x800000008000000A,
   0x8000000080008081, 0x8000000000008080, 0x0000000080000001, 0x8000000080008008]

/-- Byte `j` of the one padded block of 136 bytes: the message, `0x01`, zeros, `0x80` in the last byte (G5). -/
def blockByte (m : Message) (j : Nat) : Byte :=
  if h : j < 32 then m[j] else if j = 32 then 0x01 else if j = 135 then 0x80 else 0

/-- The little-endian 64-bit lane of block bytes `8k .. 8k+7` (G5). -/
def blockLane (m : Message) (k : Nat) : Word :=
  blockByte m (8 * k + 7) ++ blockByte m (8 * k + 6) ++ blockByte m (8 * k + 5) ++ blockByte m (8 * k + 4) ++
    blockByte m (8 * k + 3) ++ blockByte m (8 * k + 2) ++ blockByte m (8 * k + 1) ++ blockByte m (8 * k)

/-- The block absorbed into the zero state: 17 lanes of the rate, 8 of the capacity (G5). -/
def absorb (m : Message) : Lanes :=
  Vector.ofFn fun k => if k.val < 17 then blockLane m k.val else 0

/-- Keccak-256 of a 32-byte message: 24 rounds, then the first four lanes, little-endian (G5). -/
def keccak256 (m : Message) : Digest :=
  let A := roundConstants.foldl roundStep (absorb m)
  Vector.ofFn fun j => (A[j.val / 8]'(by omega)).extractLsb' (8 * (j.val % 8)) 8

end Sys2Proof.Machine.Keccak

namespace Sys2Proof.Machine

/-- `HashReq(M)`: the engine's answer, a function of the message alone, or none if it never answers (R58, R60, K8). -/
def HashEngine.reply (e : HashEngine) (m : Message) : Option Digest :=
  match e with
  | .keccak256 => some (Keccak.keccak256 m)
  | .other => some (Config.openHash m)
  | .silent => none

/-- The message as the bus `hash_msg[255:0]`: byte `M[j]` on bits `8j+7..8j` (R59). -/
def hashMsgBus (m : Message) : Word256 :=
  m.toList.reverse.foldl (fun (acc : Word256) b => (acc <<< 8) ||| b.setWidth 256) 0

/-- The digest read as a big-endian 256-bit number, `D[0]` most significant (R63); it is also the bus
`hash_dig[255:0]` (R59). -/
def randomValue (d : Digest) : Word256 :=
  d.toList.foldl (fun (acc : Word256) b => (acc <<< 8) ||| b.setWidth 256) 0

end Sys2Proof.Machine
end

