-- ==== Sys2Proof/Machine/HashChain.lean ====
section
/-! DEFINITION. The hash chain (42_hashchain.md R160 to R169): CHAIN and the word-selector moves RDS, WRS, RDV,
RDO. -/

namespace Sys2Proof.Machine

/-- The state of a lane after the first advance (R160). -/
def laneT1 (s : Word) : Word := adv s

/-- The state of a lane after the second advance (R160). -/
def laneT2 (s : Word) : Word := adv (laneT1 s)

/-- The first output of a lane: of `t1`, or, in the reading the spec sets aside, of the seed word (R160, R162(a)). -/
def laneOut0 (d : Config.RotDir) (f : Config.OutFrom) (s : Word) : Half :=
  match f with
  | .advanced => mixOut d (laneT1 s)
  | .published => mixOut d s

/-- The second output of a lane: of `t2`, or, in the reading the spec sets aside, of `t1` (R160, R162(a)). -/
def laneOut1 (d : Config.RotDir) (f : Config.OutFrom) (s : Word) : Half :=
  match f with
  | .advanced => mixOut d (laneT2 s)
  | .published => mixOut d (laneT1 s)

/-- The eight outputs of a draw, lane 0's two first: `o[2i]` and `o[2i+1]` are lane `i`'s (R30, R160). -/
def drawOutputs (d : Config.RotDir) (f : Config.OutFrom) (S : Vector Word 4) : Vector Half 8 :=
  #v[laneOut0 d f S[0], laneOut1 d f S[0], laneOut0 d f S[1], laneOut1 d f S[1],
     laneOut0 d f S[2], laneOut1 d f S[2], laneOut0 d f S[3], laneOut1 d f S[3]]

/-- The next seed: lane 0's final state is word 3, lane 1's word 2, lane 2's word 0, lane 3's word 1 (R160). -/
def nextSeed (S : Vector Word 4) : Vector Word 4 :=
  #v[laneT2 S[2], laneT2 S[3], laneT2 S[1], laneT2 S[0]]

/-- The message: `M[4k+j] = o[k][8j+7:8j]`, each output little-endian (R62, R160). -/
def message (o : Vector Half 8) : Message :=
  Vector.ofFn fun b => (o[b.val / 4]'(by omega)).extractLsb' (8 * (b.val % 4)) 8

/-- A 256-bit value split into its words, word `w` being bits `64w+63..64w` (R10, R61). -/
def splitWords (v : Word256) : Vector Word 4 := Vector.ofFn fun w => v.extractLsb' (64 * w.val) 64

/-- The words of a 256-bit value put together, word 0 least significant (R10, R29). -/
def joinWords (ws : Vector Word 4) : Word256 := ws[3] ++ ws[2] ++ ws[1] ++ ws[0]

/-- CHAIN: one draw, with one hash transaction; everything is written together after the digest has come, and
nothing if it does not come (R160, R161). -/
def execChain (s : State) : Host.Outcome State Fault Refusal :=
  let o := drawOutputs Config.rotDir Config.outFrom s.S
  match s.engine.reply (message o) with
  | some d => .next (s.writeDraw o (splitWords (randomValue d)) (nextSeed s.S))
  | none => .next s.awaitDigest

/-- RDS (R164). -/
def execRds (rd : RegIdx) (sel : Sel) (s : State) : Host.Outcome State Fault Refusal :=
  match wordSel sel with
  | some w => .next (s.writeX rd s.S[w])
  | none => selectorFault (.rds rd sel) s

/-- WRS (R165). -/
def execWrs (sel : Sel) (rs1 : RegIdx) (s : State) : Host.Outcome State Fault Refusal :=
  match wordSel sel with
  | some w => .next (s.writeS w (s.readX rs1))
  | none => selectorFault (.wrs sel rs1) s

/-- RDV (R166). -/
def execRdv (rd : RegIdx) (sel : Sel) (s : State) : Host.Outcome State Fault Refusal :=
  match wordSel sel with
  | some w => .next (s.writeX rd s.V[w])
  | none => selectorFault (.rdv rd sel) s

/-- RDO (R167). -/
def execRdo (rd : RegIdx) (sel : Sel) (s : State) : Host.Outcome State Fault Refusal :=
  match outSel sel with
  | some k => .next (s.writeX rd (zext64 s.O[k]))
  | none => selectorFault (.rdo rd sel) s

end Sys2Proof.Machine
end

