-- ==== Sys2Proof/Machine/Moves.lean ====
section
/-! DEFINITION. The immediate and move commands (43_move_immediate.md R190 to R192): LI, LSI, MV. -/

namespace Sys2Proof.Machine

/-- `{v[47:0], imm16}` (R191). -/
def insertImm (v : Word) (imm : Imm16) : Word := v.extractLsb' 0 48 ++ imm

/-- LI (R190). -/
def execLi (rd : RegIdx) (imm : Imm16) (s : State) : Host.Outcome State Fault Refusal :=
  .next (s.writeX rd (sext64 imm))

/-- LSI (R191). -/
def execLsi (rd : RegIdx) (imm : Imm16) (s : State) : Host.Outcome State Fault Refusal :=
  .next (s.writeX rd (insertImm (s.readX rd) imm))

/-- MV (R192). -/
def execMv (rd rs1 : RegIdx) (s : State) : Host.Outcome State Fault Refusal :=
  .next (s.writeX rd (s.readX rs1))

end Sys2Proof.Machine
end

