-- ==== Sys2Proof/Machine/Dispatch.lean ====
section
/-! DEFINITION. The meaning of each command, one arm per constructor of `Instr`. -/

namespace Sys2Proof.Machine

def exec (i : Instr) (s : State) : Host.Outcome State Fault Refusal :=
  match i with
  | .fromint rd rs1 => Sys2Proof.Machine.execFromint rd rs1 s
  | .add rd rs1 rs2 => Sys2Proof.Machine.execAdd rd rs1 rs2 s
  | .sub rd rs1 rs2 => Sys2Proof.Machine.execSub rd rs1 rs2 s
  | .mul rd rs1 rs2 => Sys2Proof.Machine.execMul rd rs1 rs2 s
  | .div rd rs1 rs2 => Sys2Proof.Machine.execDiv rd rs1 rs2 s
  | .adv rd rs1 => Sys2Proof.Machine.execAdv rd rs1 s
  | .out rd rs1 => Sys2Proof.Machine.execOut rd rs1 s
  | .rotr32 rd rs1 rs2 => Sys2Proof.Machine.execRotr32 rd rs1 rs2 s
  | .rotr64 rd rs1 rs2 => Sys2Proof.Machine.execRotr64 rd rs1 rs2 s
  | .chain => Sys2Proof.Machine.execChain s
  | .rds rd sel => Sys2Proof.Machine.execRds rd sel s
  | .wrs sel rs1 => Sys2Proof.Machine.execWrs sel rs1 s
  | .rdv rd sel => Sys2Proof.Machine.execRdv rd sel s
  | .rdo rd sel => Sys2Proof.Machine.execRdo rd sel s
  | .li rd imm => Sys2Proof.Machine.execLi rd imm s
  | .lsi rd imm => Sys2Proof.Machine.execLsi rd imm s
  | .mv rd rs1 => Sys2Proof.Machine.execMv rd rs1 s

end Sys2Proof.Machine
end

