-- ==== Sys2Proof/Machine/Ports.lean ====
section
/-! DEFINITION. The command port and the host port (20_memory.md R51 to R57; 60_exceptions.md R203 to R205): what the
unit does with each move of the host. -/

namespace Sys2Proof.Machine

/-- The code of a space on the host port (R51); no rule depends on it (K21). -/
def Space.code : Space → Nat
  | .X => 0
  | .S => 1
  | .V => 2
  | .O => 3
  | .CSR => 4

/-- The unit is idle: no command is in progress (R53). -/
def State.idle (s : State) : Bool := !s.busy

/-- Element `i` of a space, if the space has it (R51). -/
def State.element (s : State) (sp : Space) (i : Nat) : Option ReadValue :=
  match sp with
  | .X => s.x[i]?.map .wide
  | .S => s.S[i]?.map .wide
  | .V => s.V[i]?.map .wide
  | .O => s.O[i]?.map .narrow
  | .CSR => if i = 0 then some (.narrow s.status) else if i = 1 then some (.narrow s.fcmd) else none

/-- `HostRead(space, i)`: allowed whenever the unit is idle, faulted or not, and without side effect on it (R54,
R57, R205). -/
def hostRead (sp : Space) (i : Nat) (s : State) : Host.Outcome State Fault Refusal :=
  if s.busy then .refused .hostAccessWhileBusy
  else
    match s.element sp i with
    | some v => .next (s.receive v).moveMade
    | none => .refused .noSuchHostMove

/-- A write to an element of the host's, ignored while `FAULT` = 1 (R54, R56). -/
def unlessFaulted (s t : State) : State := if s.faulted then s else t

/-- `HostWrite(space, i, v)`: to `X` or `S` only, whenever the unit is idle (R54, R55). -/
def hostWrite (sp : Space) (i : Nat) (v : Word) (s : State) : Host.Outcome State Fault Refusal :=
  if s.busy then .refused .hostAccessWhileBusy
  else
    match sp with
    | .X => if h : i < 16 then .next (unlessFaulted s (s.writeX ⟨i, h⟩ v)).moveMade else .refused .noSuchHostMove
    | .S => if h : i < 4 then .next (unlessFaulted s (s.writeS ⟨i, h⟩ v)).moveMade else .refused .noSuchHostMove
    | .V => .refused .noSuchHostMove
    | .O => .refused .noSuchHostMove
    | .CSR => .refused .noSuchHostMove

/-- Execution of an accepted command, and the end of it (R27, R53). -/
def runCommand (i : Instr) (s : State) : Host.Outcome State Fault Refusal :=
  match exec i s with
  | .next t => .next t.commandDone
  | .fault f => .fault f
  | .refused r => .refused r

/-- Commands run one after the other, each completely, in order (R67). -/
def runCommands (is : List Instr) (s : State) : Host.Outcome State Fault Refusal :=
  match is with
  | [] => .next s
  | i :: rest =>
    match runCommand i s with
    | .next t => runCommands rest t
    | .fault f => .fault f
    | .refused r => .refused r

/-- A command word the idle, unfaulted unit has accepted: it is decoded and runs, or the unit takes the fault
(R88, R203). -/
def accept (w : Command) (s : State) : Host.Outcome State Fault Refusal :=
  match decode w with
  | .command i => runCommand i s
  | .fault c => .next (s.takeFault c w)

/-- `Issue(cmd)`: while a command is in progress the port does not accept it, and as the engine never answers the
unit stands still (R53, R243, K8); while `FAULT` = 1 it is refused without being decoded and changes nothing (R53,
R205, K17); else it is accepted. -/
def issueCommand (w : Command) (s : State) : Host.Outcome State Fault Refusal :=
  if s.busy then .fault .hashEngineSilent
  else if s.faulted then .next s.moveMade
  else accept w s.moveMade

/-- `Reset`: always, also during a command (R54, R230, R231). -/
def hostReset (s : State) : Host.Outcome State Fault Refusal := .next s.moveMade.afterReset

/-- With no move of the host the unit is idle and keeps all its state (R217, R242), or it waits for a digest that
never comes (R243, K8). -/
def noMove (s : State) : Host.Outcome State Fault Refusal :=
  if s.busy then .fault .hashEngineSilent else .next s

/-- One move of the host, at the head of its list. -/
def hostMove (m : HostMove) (s : State) : Host.Outcome State Fault Refusal :=
  match m with
  | .read sp i => hostRead sp i s
  | .write sp i v => hostWrite sp i v s
  | .issue w => issueCommand w s
  | .reset => hostReset s

/-- The host's moves with one more in front. -/
def State.pushMove (s : State) (m : HostMove) : State := { s with host := m :: s.host }

/-- The run of a program from this state: its words are issued in order, with the index at 0, and then the host makes
whatever moves it makes next, for a run is a prefix of a stream that need not stop (R27, R242). -/
def State.withProgram (s : State) (prog : List Command) (more : List HostMove) : State :=
  { s with host := prog.map .issue ++ more, ci := 0 }

end Sys2Proof.Machine
end

