-- ==== Sys2Proof/Machine/Step.lean ====
section
/-! DEFINITION. One step of the machine: the host's next move (20_memory.md R54, R67). The unit has no program
counter and no fetch (10_state.md R27, R69); the command it runs next is the one the host issues next. -/

namespace Sys2Proof.Machine

/-- One step: the next move of the host, if there is one. -/
def step (s : State) : Host.Outcome State Fault Refusal :=
  match s.host with
  | [] => noMove s
  | m :: _ => hostMove m s

/-- The state in which the host's next move is to issue this word of the opcode table (assumption 5). -/
def State.withFetchWord (s : State) (nbits w : Nat) : State := s.pushMove (.issue (tableWord nbits w))

end Sys2Proof.Machine
end

