-- ==== Sys2Proof/Machine/Assembler.lean ====
section
/-! DEFINITION. The assembler's syntax (30_encoding.md R92) and the pseudo-instructions (R93), over the characters of
a line. A line of blanks or comment alone stands for no command (assumption 11). -/

namespace Sys2Proof.Machine.Asm

/-- `LI64 rd, imm64` (R93). -/
def li64 (rd : RegIdx) (v : Word) : List Instr :=
  [.li rd (v.extractLsb' 48 16), .lsi rd (v.extractLsb' 32 16), .lsi rd (v.extractLsb' 16 16),
   .lsi rd (v.extractLsb' 0 16)]

/-- `FLI rd, n` (R93). -/
def fli (rd : RegIdx) (n : Imm16) : List Instr := [.li rd n, .fromint rd rd]

/-- `SEED4 ra, rb, rc, rd4` (R93). -/
def seed4 (ra rb rc rd4 : RegIdx) : List Instr := [.wrs 0 ra, .wrs 1 rb, .wrs 2 rc, .wrs 3 rd4]

/-- The mnemonic of a command, in capitals (R87, R92). -/
def mnemonic : Opcode → String
  | .fromint => "FROMINT"
  | .add => "ADD"
  | .sub => "SUB"
  | .mul => "MUL"
  | .div => "DIV"
  | .adv => "ADV"
  | .out => "OUT"
  | .rotr32 => "ROTR32"
  | .rotr64 => "ROTR64"
  | .chain => "CHAIN"
  | .rds => "RDS"
  | .wrs => "WRS"
  | .rdv => "RDV"
  | .rdo => "RDO"
  | .li => "LI"
  | .lsi => "LSI"
  | .mv => "MV"

/-- Space and tab separate tokens (assumption 11). -/
def isBlank (c : Char) : Bool := c == ' ' || c == '\t'

/-- The text without blanks at its ends. -/
def trim (t : List Char) : List Char := ((t.dropWhile isBlank).reverse.dropWhile isBlank).reverse

/-- The pieces between commas. -/
def splitCommas : List Char → List (List Char)
  | [] => [[]]
  | c :: rest =>
    if c == ',' then [] :: splitCommas rest
    else
      match splitCommas rest with
      | [] => [[c]]
      | t :: ts => (c :: t) :: ts

/-- The operands after the mnemonic; no text, no operand. -/
def operands (t : List Char) : List (List Char) :=
  if (trim t).isEmpty then [] else (splitCommas t).map trim

/-- The value of a digit in base 10 or 16, capitals or small letters alike. -/
def digit (base : Nat) (c : Char) : Option Nat :=
  let v :=
    if '0'.toNat ≤ c.toNat ∧ c.toNat ≤ '9'.toNat then c.toNat - '0'.toNat
    else if 'a'.toNat ≤ c.toNat ∧ c.toNat ≤ 'f'.toNat then c.toNat - 'a'.toNat + 10
    else if 'A'.toNat ≤ c.toNat ∧ c.toNat ≤ 'F'.toNat then c.toNat - 'A'.toNat + 10
    else base
  if v < base then some v else none

/-- The digits of a number, most significant first, added to what stands before them. -/
def digits (base : Nat) (acc : Nat) : List Char → Option Nat
  | [] => some acc
  | c :: rest => (digit base c).bind fun v => digits base (base * acc + v) rest

/-- A number with at least one digit. -/
def natural (base : Nat) (t : List Char) : Option Nat := if t.isEmpty then none else digits base 0 t

/-- An immediate: decimal with optional sign, or `0x` hexadecimal (R92). -/
def number (t : List Char) : Option Int :=
  match t with
  | '0' :: 'x' :: h => (natural 16 h).map Int.ofNat
  | '-' :: d => (natural 10 d).map fun n => -(Int.ofNat n)
  | '+' :: d => (natural 10 d).map Int.ofNat
  | d => (natural 10 d).map Int.ofNat

/-- A name made of a letter and a number `0..max`, written without leading zero (R92). -/
def named (letter : Char) (max : Nat) (t : List Char) : Option (Fin 16) :=
  match t with
  | c :: d =>
    if c == letter && (d.length == 1 || d.head? != some '0') then
      (natural 10 d).bind fun n => if h : n ≤ max ∧ n < 16 then some ⟨n, h.2⟩ else none
    else none
  | [] => none

/-- A general register, `x0` to `x15` (R92). -/
def register (t : List Char) : Option RegIdx := named 'x' 15 t

/-- The immediate of `LI` and of `FLI`: signed, `-32768..32767` (R92, R93). -/
def signedImm (t : List Char) : Option Imm16 :=
  (number t).bind fun n => if -32768 ≤ n ∧ n ≤ 32767 then some (BitVec.ofInt 16 n) else none

/-- The immediate of `LSI`: unsigned, `0..65535` (R92). -/
def unsignedImm (t : List Char) : Option Imm16 :=
  (number t).bind fun n => if 0 ≤ n ∧ n ≤ 65535 then some (BitVec.ofInt 16 n) else none

/-- The immediate of `LI64`: any value of 64 bits, signed or unsigned (assumption 11). -/
def wideImm (t : List Char) : Option Word :=
  (number t).bind fun n => if -(2 ^ 63) ≤ n ∧ n < 2 ^ 64 then some (wrap64 n) else none

/-- A command from its opcode and operands; the letter of a selector name must match the command (R92). -/
def command (o : Opcode) (ops : List (List Char)) : Option Instr :=
  match o, ops with
  | .fromint, [d, a] => do return .fromint (← register d) (← register a)
  | .add, [d, a, b] => do return .add (← register d) (← register a) (← register b)
  | .sub, [d, a, b] => do return .sub (← register d) (← register a) (← register b)
  | .mul, [d, a, b] => do return .mul (← register d) (← register a) (← register b)
  | .div, [d, a, b] => do return .div (← register d) (← register a) (← register b)
  | .adv, [d, a] => do return .adv (← register d) (← register a)
  | .out, [d, a] => do return .out (← register d) (← register a)
  | .rotr32, [d, a, b] => do return .rotr32 (← register d) (← register a) (← register b)
  | .rotr64, [d, a, b] => do return .rotr64 (← register d) (← register a) (← register b)
  | .chain, [] => some .chain
  | .rds, [d, n] => do return .rds (← register d) (← named 's' 3 n)
  | .wrs, [n, a] => do return .wrs (← named 's' 3 n) (← register a)
  | .rdv, [d, n] => do return .rdv (← register d) (← named 'v' 3 n)
  | .rdo, [d, n] => do return .rdo (← register d) (← named 'o' 7 n)
  | .li, [d, n] => do return .li (← register d) (← signedImm n)
  | .lsi, [d, n] => do return .lsi (← register d) (← unsignedImm n)
  | .mv, [d, a] => do return .mv (← register d) (← register a)
  | _, _ => none

/-- A pseudo-instruction's expansion (R93). -/
def pseudo (m : List Char) (ops : List (List Char)) : Option (List Instr) :=
  match ops with
  | [d, n] =>
    if m = "LI64".toList then do return li64 (← register d) (← wideImm n)
    else if m = "FLI".toList then do return fli (← register d) (← signedImm n)
    else none
  | [a, b, c, d] =>
    if m = "SEED4".toList then do return seed4 (← register a) (← register b) (← register c) (← register d)
    else none
  | _ => none

/-- The commands of one line (R92, R93); none if the assembler rejects it. -/
def line (t : List Char) : Option (List Instr) :=
  let text := trim (t.takeWhile fun c => c != '#')
  if text.isEmpty then some []
  else
    let m := text.takeWhile fun c => !isBlank c
    let ops := operands (text.dropWhile fun c => !isBlank c)
    match Opcode.all.find? fun o => m == (mnemonic o).toList with
    | some o => (command o ops).map fun i => [i]
    | none => pseudo m ops

/-- The command words of a program's lines, in order (R92). -/
def assemble : List (List Char) → Option (List Command)
  | [] => some []
  | t :: rest => do
    let is ← line t
    let ws ← assemble rest
    return is.map encode ++ ws

end Sys2Proof.Machine.Asm
end

