-- ==== Sys2Proof/Safety.lean ====
section
/-! DEFINITION. The terms claims use: what a command leaves unchanged (its frame), which reads are of written words
(10_state.md R32), the states the unit can be in (R33, R34), and how a run ends (70_reset_and_hazards.md R242). -/

namespace Sys2Proof.Machine

/-- The control registers are as before (R33, R34). -/
structure SameControl (s t : State) : Prop where
  status : t.status = s.status
  fcmd : t.fcmd = s.fcmd

/-- The results of the last draw, and their marks, are as before (R30, R31). -/
structure SameDraw (s t : State) : Prop where
  O : t.O = s.O
  V : t.V = s.V
  markO : t.written.O = s.written.O
  markV : t.written.V = s.written.V

/-- The seed, and its marks, are as before (R29). -/
structure SameSeed (s t : State) : Prop where
  S : t.S = s.S
  markS : t.written.S = s.written.S

/-- The general registers, and their marks, are as before (R21). -/
structure SameX (s t : State) : Prop where
  x : t.x = s.x
  markX : t.written.x = s.written.x

/-- All data registers are as before. -/
structure SameData (s t : State) : Prop where
  x : SameX s t
  seed : SameSeed s t
  draw : SameDraw s t

/-- What stands around the unit, and the command index, are as before. -/
structure SameFrame (s t : State) : Prop where
  busy : t.busy = s.busy
  engine : t.engine = s.engine
  ci : t.ci = s.ci
  host : t.host = s.host
  received : t.received = s.received

/-- The general registers but `rd` are as before, and `rd` is written (R22, R32). -/
structure OnlyRegister (rd : RegIdx) (s t : State) : Prop where
  others : ∀ r, r ≠ rd → t.x[r] = s.x[r] ∧ t.written.x[r] = s.written.x[r]
  marked : t.written.x[rd] = true

/-- A command that writes `x[rd]` and nothing else (R111, R140). -/
structure WritesOnlyX (rd : RegIdx) (s t : State) : Prop where
  reg : OnlyRegister rd s t
  seed : SameSeed s t
  draw : SameDraw s t
  control : SameControl s t
  frame : SameFrame s t

/-- A command that writes `S[w]` and nothing else (R165). -/
structure WritesOnlyS (w : Fin 4) (s t : State) : Prop where
  x : SameX s t
  others : ∀ v, v ≠ w → t.S[v] = s.S[v] ∧ t.written.S[v] = s.written.S[v]
  marked : t.written.S[w] = true
  draw : SameDraw s t
  control : SameControl s t
  frame : SameFrame s t

/-- The states the unit can be in: `STATUS` is 0 and then `FCMD` is 0, or it is the status of the fault that the
word in `FCMD` raises (R33, R34, R203); the draw registers are written all together, with the seed (R30, R31, R32,
R160); a command in progress waits for an engine that never answers, and the unit is then not faulted (R53, R60). -/
structure State.Legal (s : State) : Prop where
  unfaulted : s.faulted = false → s.status = 0 ∧ s.fcmd = 0
  faulted : s.faulted = true → ∃ c, decode s.fcmd = .fault c ∧ s.status = statusWord c.code
  drawn : ∃ b, s.written.O = Vector.replicate 8 b ∧ s.written.V = Vector.replicate 4 b ∧
    (b = true → s.written.S = Vector.replicate 4 true)
  waiting : s.busy = true → s.engine = .silent ∧ s.faulted = false

/-- Every register a command reads is written: the reads R32 lists. A model that refuses reads of unwritten words
refuses the other states (K1); here such a read gives the word's value (assumption 1), and a claim that must not rest
on it takes this as its premise. -/
def readsWritten (i : Instr) (s : State) : Bool :=
  match i with
  | .fromint _ a => s.written.x[a]
  | .add _ a b => s.written.x[a] && s.written.x[b]
  | .sub _ a b => s.written.x[a] && s.written.x[b]
  | .mul _ a b => s.written.x[a] && s.written.x[b]
  | .div _ a b => s.written.x[a] && s.written.x[b]
  | .adv _ a => s.written.x[a]
  | .out _ a => s.written.x[a]
  | .rotr32 _ a b => s.written.x[a] && s.written.x[b]
  | .rotr64 _ a b => s.written.x[a] && s.written.x[b]
  | .chain => s.written.S == Vector.replicate 4 true
  | .rds _ sel => (wordSel sel).all fun w => s.written.S[w]
  | .wrs _ a => s.written.x[a]
  | .rdv _ sel => (wordSel sel).all fun w => s.written.V[w]
  | .rdo _ sel => (outSel sel).all fun k => s.written.O[k]
  | .li _ _ => true
  | .lsi rd _ => s.written.x[rd]
  | .mv _ a => s.written.x[a]

/-- The element a host read names is written; the control registers always are (R32, R57). -/
def State.elementWritten (s : State) (sp : Space) (i : Nat) : Bool :=
  match sp with
  | .X => s.written.x[i]?.getD true
  | .S => s.written.S[i]?.getD true
  | .V => s.written.V[i]?.getD true
  | .O => s.written.O[i]?.getD true
  | .CSR => true

/-- The next step reads no unwritten word (R32, K1). -/
def State.stepReadsWritten (s : State) : Bool :=
  match s.host with
  | .issue w :: _ =>
    s.busy || s.faulted ||
      match decode w with
      | .command i => readsWritten i s
      | .fault _ => true
  | .read sp i :: _ => s.busy || s.elementWritten sp i
  | .write _ _ _ :: _ => true
  | .reset :: _ => true
  | [] => true

/-- Two states that differ at most in what their unwritten words hold (R32, R36, K2). -/
structure AgreeOnWritten (s t : State) : Prop where
  written : t.written = s.written
  x : ∀ r : RegIdx, s.written.x[r] = true → t.x[r] = s.x[r]
  S : ∀ w : Fin 4, s.written.S[w] = true → t.S[w] = s.S[w]
  O : ∀ k : Fin 8, s.written.O[k] = true → t.O[k] = s.O[k]
  V : ∀ w : Fin 4, s.written.V[w] = true → t.V[w] = s.V[w]
  control : SameControl s t
  frame : SameFrame s t

/-- The run of `prog` is at its good end: `ci` is the program's length, the unit is idle and `FAULT` = 0. What moves
the host makes next does not matter (R242). -/
def State.goodEnd (prog : List Command) (s : State) : Bool :=
  s.ci == prog.length && s.idle && !s.faulted

/-- Each of the next `k` steps, as far as the run goes, reads written words only: R242 counts a run with another step
as refused by the model and not ended. Here such a step runs (assumption 1), and a claim that must not rest on it
takes this as its premise. -/
def State.runReadsWritten (k : Nat) (s : State) : Bool :=
  match k with
  | 0 => true
  | k + 1 =>
    s.stepReadsWritten &&
      match step s with
      | .next t => t.runReadsWritten k
      | .fault _ => true
      | .refused _ => true

end Sys2Proof.Machine
end

