-- ==== Sys2Proof/Certificates/Slice0/Obligations.lean ====
section
/-! DEFINITION. The statements for the provers. A statement of a command says the word it is decoded from, that it
answers a next state from every state, the value it writes, and everything it leaves unchanged. -/

open Sys2Proof Sys2Proof.Machine

/-! ## Encoding -/

/-- Decoding the word of a well-formed command gives the command back, whatever its operands (R83, R87, R88). -/
def Obligations.DecodeOfEncode : Prop :=
  ∀ i : Instr, i.wf = true → decode (encode i) = .command i

/-- A word that decodes to a command is that command's own word, and the command is well formed: no word has a bit
that decoding drops (R83, R84, R86, R90). -/
def Obligations.EncodeOfDecode : Prop :=
  ∀ (w : Command) (i : Instr), decode w = .command i → i.wf = true ∧ encode i = w

/-- The `match` and `mask` columns of the opcode map accept exactly the words that decode to the row's command
(R87). -/
def Obligations.DecodeMatchesOpcodeTable : Prop :=
  ∀ (o : Opcode) (w : Command),
    w &&& o.maskWord = o.matchWord ↔ ∃ i, decode w = .command i ∧ i.opcode = o

/-- The unassigned opcodes are those of R89's ranges, 239 of them; a word with one of them is `IllegalOpcode` whatever
its other bits, and no other word is; all zeros and all ones are among them (R89). -/
def Obligations.UnassignedOpcodesAreIllegal : Prop :=
  (∀ w : Command,
    decode w = .fault .illegalOpcode ↔
      (w.toNat / 2 ^ 24 ≤ 0x0F ∨ (0x15 ≤ w.toNat / 2 ^ 24 ∧ w.toNat / 2 ^ 24 ≤ 0x1F) ∨
        (0x24 ≤ w.toNat / 2 ^ 24 ∧ w.toNat / 2 ^ 24 ≤ 0x2F) ∨ (0x35 ≤ w.toNat / 2 ^ 24 ∧ w.toNat / 2 ^ 24 ≤ 0x3F) ∨
        0x43 ≤ w.toNat / 2 ^ 24)) ∧
  ((List.range 256).countP fun b => (Opcode.ofCode (BitVec.ofNat 8 b)).isNone) = 239 ∧
  decode 0x00000000 = .fault .illegalOpcode ∧ decode 0xFFFFFFFF = .fault .illegalOpcode

/-- Which words can raise which fault: every assigned opcode has legal words and words that raise `ReservedField`; a
word raises `SelectorRange` only with the opcode of RDS, WRS, RDV or RDO, and each of those can raise it; no register
number and no immediate makes a word illegal, only a selector does (R201). -/
def Obligations.FaultKindsByCommand : Prop :=
  (∀ o : Opcode, (∃ w i, opField w = o.code ∧ decode w = .command i) ∧
    ∃ w, opField w = o.code ∧ decode w = .fault .reservedField) ∧
  (∀ w, decode w = .fault .selectorRange →
    opField w = 0x31 ∨ opField w = 0x32 ∨ opField w = 0x33 ∨ opField w = 0x34) ∧
  (∀ o : Opcode, o = .rds ∨ o = .wrs ∨ o = .rdv ∨ o = .rdo →
    ∃ w, opField w = o.code ∧ decode w = .fault .selectorRange) ∧
  ∀ (i : Instr) (c : DecodeFault), decode (encode i) = .fault c → c = .selectorRange ∧ i.wf = false

/-- Words written out from the formats decode to the commands they stand for: the examples of R92 and of R206. -/
def Obligations.SpecWordsDecode : Prop :=
  decode 0x13433000 = .command (.mul 4 3 3) ∧ decode 0x10110000 = .command (.fromint 1 1) ∧
  decode 0x40100003 = .command (.li 1 3) ∧ decode 0x33200000 = .command (.rdv 2 0) ∧
  decode 0x32013000 = .command (.wrs 3 1) ∧ decode 0x30000000 = .command .chain ∧
  decode 0x31F0F000 = .fault .selectorRange ∧ decode 0x31F1F000 = .fault .reservedField ∧
  decode 0x35F1F000 = .fault .illegalOpcode

/-! ## Fixed-point commands -/

/-- `FROMINT`: the word, the result `{x[rs1][31:0], 0}`, equal to the wrapped `s(x[rs1]) * 2^32`, and nothing else
changed (R112). -/
def Obligations.FromintShiftsLeft : Prop :=
  ∀ rd rs1 : RegIdx,
    decode (0x10#8 ++ field4 rd ++ field4 rs1 ++ 0#16) = .command (.fromint rd rs1) ∧
    ∀ s : State, ∃ t, exec (.fromint rd rs1) s = .next t ∧ WritesOnlyX rd s t ∧
      t.x[rd] = (s.x[rs1]).extractLsb' 0 32 ++ 0#32 ∧
      t.x[rd] = BitVec.ofInt 64 ((s.x[rs1]).toInt * 2 ^ 32)

/-- `ADD`: the word, the sum modulo `2^64` in either reading of the operands, and nothing else changed (R113). -/
def Obligations.AddWrapsAround : Prop :=
  ∀ rd rs1 rs2 : RegIdx,
    decode (0x11#8 ++ field4 rd ++ field4 rs1 ++ field4 rs2 ++ 0#12) = .command (.add rd rs1 rs2) ∧
    ∀ s : State, ∃ t, exec (.add rd rs1 rs2) s = .next t ∧ WritesOnlyX rd s t ∧
      t.x[rd] = BitVec.ofNat 64 ((s.x[rs1]).toNat + (s.x[rs2]).toNat) ∧
      t.x[rd] = BitVec.ofInt 64 ((s.x[rs1]).toInt + (s.x[rs2]).toInt)

/-- `SUB`: the word, the difference modulo `2^64` in either reading of the operands, and nothing else changed
(R114). -/
def Obligations.SubWrapsAround : Prop :=
  ∀ rd rs1 rs2 : RegIdx,
    decode (0x12#8 ++ field4 rd ++ field4 rs1 ++ field4 rs2 ++ 0#12) = .command (.sub rd rs1 rs2) ∧
    ∀ s : State, ∃ t, exec (.sub rd rs1 rs2) s = .next t ∧ WritesOnlyX rd s t ∧
      t.x[rd] = BitVec.ofInt 64 (((s.x[rs1]).toNat : Int) - ((s.x[rs2]).toNat : Int)) ∧
      t.x[rd] = BitVec.ofInt 64 ((s.x[rs1]).toInt - (s.x[rs2]).toInt)

/-- `MUL`: the word, the floor of the exact signed product over `2^32`, which is bits 95..32 of the 128-bit product,
and nothing else changed (R115). -/
def Obligations.MulFloorsExactProduct : Prop :=
  ∀ rd rs1 rs2 : RegIdx,
    decode (0x13#8 ++ field4 rd ++ field4 rs1 ++ field4 rs2 ++ 0#12) = .command (.mul rd rs1 rs2) ∧
    ∀ s : State, ∃ t, exec (.mul rd rs1 rs2) s = .next t ∧ WritesOnlyX rd s t ∧
      t.x[rd] = BitVec.ofInt 64 (((s.x[rs1]).toInt * (s.x[rs2]).toInt).fdiv (2 ^ 32)) ∧
      t.x[rd] = ((s.x[rs1]).signExtend 128 * (s.x[rs2]).signExtend 128).extractLsb' 32 64

/-- `DIV`: the word, the sentinel for a zero divisor and else the quotient of the unwrapped dividend truncated toward
zero, its low 64 bits, and nothing else changed (R116; the wide dividend is decision D9, assumption 7). -/
def Obligations.DivTruncatesWideQuotient : Prop :=
  ∀ rd rs1 rs2 : RegIdx,
    decode (0x14#8 ++ field4 rd ++ field4 rs1 ++ field4 rs2 ++ 0#12) = .command (.div rd rs1 rs2) ∧
    ∀ s : State, ∃ t, exec (.div rd rs1 rs2) s = .next t ∧ WritesOnlyX rd s t ∧
      (s.x[rs2] = 0 → t.x[rd] = 0x8000000000000001) ∧
      (s.x[rs2] ≠ 0 → t.x[rd] = BitVec.ofInt 64 (((s.x[rs1]).toInt * 2 ^ 32).tdiv (s.x[rs2]).toInt))

/-- `MUL` rounds down and `DIV` toward zero, in the real numbers the registers stand for: where the exact result
fits, `MUL` is at most it and less than one ulp below, `DIV` is no larger in magnitude, less than one ulp off and
never of the other sign; so `-1ulp * 1ulp = -1ulp` and `-1ulp / 2.0 = 0` (R118). -/
def Obligations.MulFloorsDivTruncates : Prop :=
  (∀ a b : Word, -(2 ^ 31) ≤ fxValue a * fxValue b → fxValue a * fxValue b < 2 ^ 31 →
    fxValue (fxMul a b) ≤ fxValue a * fxValue b ∧ fxValue a * fxValue b < fxValue (fxMul a b) + 1 / 2 ^ 32) ∧
  (∀ a b : Word, b ≠ 0 → -(2 ^ 31) ≤ fxValue a / fxValue b → fxValue a / fxValue b < 2 ^ 31 →
    |fxValue (fxDiv Config.divWide a b)| ≤ |fxValue a / fxValue b| ∧
    |fxValue a / fxValue b - fxValue (fxDiv Config.divWide a b)| < 1 / 2 ^ 32 ∧
    0 ≤ fxValue (fxDiv Config.divWide a b) * (fxValue a / fxValue b)) ∧
  fxMul 0xFFFFFFFFFFFFFFFF 0x0000000000000001 = 0xFFFFFFFFFFFFFFFF ∧
  fxDiv Config.divWide 0xFFFFFFFFFFFFFFFF 0x0000000200000000 = 0

/-- Multiplying by `b` and dividing by it again is off by at most one raw unit where `|b| >= 1.0` and the product
fits; outside that domain it is not, as R120's two counter-examples show (R120). -/
def Obligations.DivOfMulWithinOneUlp : Prop :=
  (∀ a b : Word, 2 ^ 32 ≤ |b.toInt| → -(2 ^ 63) ≤ (a.toInt * b.toInt).fdiv (2 ^ 32) →
    (a.toInt * b.toInt).fdiv (2 ^ 32) < 2 ^ 63 →
    |(fxDiv Config.divWide (fxMul a b) b).toInt - a.toInt| ≤ 1) ∧
  (fxMul 0x0000000512345678 0x0000000000010000 = 0x0000000000051234 ∧
    fxDiv Config.divWide 0x0000000000051234 0x0000000000010000 = 0x0000000512340000) ∧
  (fxMul 0x0001000000000000 0x0001000000000000 = 0 ∧ fxDiv Config.divWide 0 0x0001000000000000 = 0)

/-! ## Bit mixer commands -/

/-- `ADV`: the word, multiply and add modulo `2^64` with doc00's two constants, and nothing else changed (R142). -/
def Obligations.AdvMultipliesAndAdds : Prop :=
  ∀ rd rs1 : RegIdx,
    decode (0x20#8 ++ field4 rd ++ field4 rs1 ++ 0#16) = .command (.adv rd rs1) ∧
    ∀ s : State, ∃ t, exec (.adv rd rs1) s = .next t ∧ WritesOnlyX rd s t ∧
      t.x[rd] = BitVec.ofNat 64 ((s.x[rs1]).toNat * 6364136223846793005 + 1442695040888963407)

/-- `OUT`: the word, the bits 58..27 of `(s >> 18) ^ s` rotated right by the top five bits of `s`, zero-extended, and
nothing else changed (R143; the direction is C1's, assumption 8). -/
def Obligations.OutRotatesXorShifted : Prop :=
  ∀ rd rs1 : RegIdx,
    decode (0x21#8 ++ field4 rd ++ field4 rs1 ++ 0#16) = .command (.out rd rs1) ∧
    ∀ s : State, ∃ t, exec (.out rd rs1) s = .next t ∧ WritesOnlyX rd s t ∧
      t.x[rd] =
        0#32 ++ ((s.x[rs1] >>> 18 ^^^ s.x[rs1]).extractLsb' 27 32).rotateRight ((s.x[rs1]).toNat / 2 ^ 59)

/-- A rotation moves bit `(i + n) mod W` to bit `i`: to the right, the count taken modulo the width, for any count
(R144). -/
def Obligations.RotationMovesBitsRight : Prop :=
  (∀ (v : Half) (n i : Nat), i < 32 → (rotrW v n).getLsbD i = v.getLsbD ((i + n) % 32)) ∧
  (∀ (v : Word) (n i : Nat), i < 64 → (rotrW v n).getLsbD i = v.getLsbD ((i + n) % 64))

/-- `ROTR32`: the word, the low 32 bits of `x[rs1]` rotated right by the low 5 bits of `x[rs2]`, zero-extended, and
nothing else changed (R145). -/
def Obligations.Rotr32RotatesLowHalf : Prop :=
  ∀ rd rs1 rs2 : RegIdx,
    decode (0x22#8 ++ field4 rd ++ field4 rs1 ++ field4 rs2 ++ 0#12) = .command (.rotr32 rd rs1 rs2) ∧
    ∀ s : State, ∃ t, exec (.rotr32 rd rs1 rs2) s = .next t ∧ WritesOnlyX rd s t ∧
      t.x[rd] = 0#32 ++ ((s.x[rs1]).setWidth 32).rotateRight ((s.x[rs2]).toNat % 32)

/-- `ROTR64`: the word, `x[rs1]` rotated right by the low 6 bits of `x[rs2]`, and nothing else changed (R146). -/
def Obligations.Rotr64RotatesWord : Prop :=
  ∀ rd rs1 rs2 : RegIdx,
    decode (0x23#8 ++ field4 rd ++ field4 rs1 ++ field4 rs2 ++ 0#12) = .command (.rotr64 rd rs1 rs2) ∧
    ∀ s : State, ∃ t, exec (.rotr64 rd rs1 rs2) s = .next t ∧ WritesOnlyX rd s t ∧
      t.x[rd] = (s.x[rs1]).rotateRight ((s.x[rs2]).toNat % 64)

/-- `ADV` is a bijection, undone by subtracting `INC` and multiplying by an inverse of `MULT`, so two advances are one
too and different states never advance to the same state; `OUT` is not injective; rotations add their counts, and a
rotation by the width does nothing (R147). -/
def Obligations.MixerLaws : Prop :=
  Function.Bijective adv ∧ Function.Bijective (fun s => adv (adv s)) ∧
  (∃ inv : Word, Config.mult * inv = 1 ∧ ∀ s : Word, s = (adv s - Config.inc) * inv) ∧
  (∀ s t : Word, s ≠ t → adv s ≠ adv t) ∧ ¬ Function.Injective (mixOut Config.rotDir) ∧
  (∀ (v : Half) (a b : Nat), rotrW (rotrW v a) b = rotrW v (a + b) ∧ rotrW v 32 = v) ∧
  (∀ (v : Word) (a b : Nat), rotrW (rotrW v a) b = rotrW v (a + b) ∧ rotrW v 64 = v)

/-! ## Hash chain commands -/

/-- `CHAIN` with an engine that answers: the one word it has and no other; the outputs of each lane from its two
advanced states; the message, each output little-endian; one request, whose digest read big-endian is `V`; the lanes'
final states permuted into `S`; `S`, `O`, `V` all written, and nothing else changed (R160; which states feed the
outputs is decision D13, assumption 9; the direction of the rotate is C1's, assumption 8). -/
def Obligations.ChainDrawsOnce : Prop :=
  (∀ z : BitVec 24, decode (0x30#8 ++ z) = if z = 0 then .command .chain else .fault .reservedField) ∧
  ∀ s : State, s.engine ≠ .silent →
    ∃ (t : State) (M : Message) (D : Digest),
      exec .chain s = .next t ∧ s.engine.reply M = some D ∧
      (∀ i : Fin 4, t.O[2 * i.val] = mixOut .right (adv s.S[i]) ∧
        t.O[2 * i.val + 1] = mixOut .right (adv (adv s.S[i]))) ∧
      (∀ (k : Fin 8) (j : Fin 4), M[4 * k.val + j.val] = (t.O[k]).extractLsb' (8 * j.val) 8) ∧
      (∀ w : Fin 4, t.V[w] = (BitVec.ofNat 256 (∑ j : Fin 32, (D[j]).toNat * 2 ^ (8 * (31 - j.val)))).extractLsb'
        (64 * w.val) 64) ∧
      t.S[3] = adv (adv s.S[0]) ∧ t.S[2] = adv (adv s.S[1]) ∧ t.S[0] = adv (adv s.S[2]) ∧
      t.S[1] = adv (adv s.S[3]) ∧
      (∀ w : Fin 4, t.written.S[w] = true ∧ t.written.V[w] = true) ∧ (∀ k : Fin 8, t.written.O[k] = true) ∧
      SameX s t ∧ SameControl s t ∧ SameFrame s t

/-- `CHAIN` with an engine that never answers: nothing is written and the unit stays inside the command, with no step
but a reset; a reset leaves the reset state (R60, R161, R231, R243; the modelled engine is assumption 3). -/
def Obligations.ChainWithoutDigestHangs : Prop :=
  ∀ (s : State) (rest : List HostMove),
    s.engine = .silent → s.busy = false → s.faulted = false → s.host = .issue 0x30000000 :: rest →
    ∃ t, step s = .next t ∧ t.busy = true ∧ SameData s t ∧ SameControl s t ∧ t.ci = s.ci ∧ t.host = rest ∧
      t.received = s.received ∧
      (∀ u, step t = .next u → rest.head? = some .reset ∧ u.busy = false ∧ u.written = Written.none) ∧
      (∀ w more, rest = .issue w :: more → step t = .fault .hashEngineSilent) ∧
      (rest = [] → step t = .fault .hashEngineSilent) ∧
      (∀ more, rest = .reset :: more → ∃ u, step t = .next u)

/-- The map from the old seed to the new one is a bijection of 256-bit states, so different seeds have different next
seeds; what `CHAIN` writes is a function of `S` and the hash function alone, and the new `S` and `O` of `S` alone
(R163). -/
def Obligations.SeedMapIsBijective : Prop :=
  Function.Bijective nextSeed ∧
  (∀ s s' t t' : State, s.engine ≠ .silent → s'.engine ≠ .silent → s'.S = s.S →
    exec .chain s = .next t → exec .chain s' = .next t' →
    t'.S = t.S ∧ t'.O = t.O ∧ (s'.engine = s.engine → t'.V = t.V)) ∧
  (∀ s s' t t' : State, s.engine ≠ .silent → s'.engine ≠ .silent → s'.S ≠ s.S →
    exec .chain s = .next t → exec .chain s' = .next t' → t'.S ≠ t.S)

/-- The lanes of `CHAIN` are independent: two draws whose seeds agree in word `i` produce the same two outputs of lane
`i` and the same word `PERM i` of the next seed, whatever the other words and the hash engines (R168, R6). -/
def Obligations.LanesAreIndependent : Prop :=
  ∀ (s s' t t' : State) (i : Fin 4), s.engine ≠ .silent → s'.engine ≠ .silent → s'.S[i] = s.S[i] →
    exec .chain s = .next t → exec .chain s' = .next t' →
    t'.O[2 * i.val] = t.O[2 * i.val] ∧ t'.O[2 * i.val + 1] = t.O[2 * i.val + 1] ∧
    t'.S[Config.perm i] = t.S[Config.perm i] ∧ t.S[Config.perm i] = adv (adv s.S[i])

/-- `RDS`: the word, the copy of the state word the selector names, `SelectorRange` beyond 3, and nothing else changed
(R164). -/
def Obligations.RdsCopiesSeedWord : Prop :=
  ∀ (rd : RegIdx) (sel : Sel),
    (3 < sel.val → decode (0x31#8 ++ field4 rd ++ 0#4 ++ field4 sel ++ 0#12) = .fault .selectorRange) ∧
    ∀ h : sel.val ≤ 3,
      decode (0x31#8 ++ field4 rd ++ 0#4 ++ field4 sel ++ 0#12) = .command (.rds rd sel) ∧
      ∀ s : State, ∃ t, exec (.rds rd sel) s = .next t ∧ WritesOnlyX rd s t ∧ t.x[rd] = s.S[sel.val]

/-- `WRS`: the word, the register copied to the state word the selector names, the faults of the other words, and
nothing else changed (R165). -/
def Obligations.WrsWritesSeedWord : Prop :=
  ∀ (sel : Sel) (rs1 : RegIdx),
    (3 < sel.val → decode (0x32#8 ++ 0#4 ++ field4 rs1 ++ field4 sel ++ 0#12) = .fault .selectorRange) ∧
    (∀ z : BitVec 4, z ≠ 0 → decode (0x32#8 ++ z ++ field4 rs1 ++ field4 sel ++ 0#12) = .fault .reservedField) ∧
    ∀ h : sel.val ≤ 3,
      decode (0x32#8 ++ 0#4 ++ field4 rs1 ++ field4 sel ++ 0#12) = .command (.wrs sel rs1) ∧
      ∀ s : State, ∃ t, exec (.wrs sel rs1) s = .next t ∧ WritesOnlyS ⟨sel.val, by omega⟩ s t ∧
        t.S[sel.val] = s.x[rs1]

/-- `RDV`: the word, the copy of the random-value word the selector names, `SelectorRange` beyond 3, and nothing else
changed (R166). -/
def Obligations.RdvCopiesRandomWord : Prop :=
  ∀ (rd : RegIdx) (sel : Sel),
    (3 < sel.val → decode (0x33#8 ++ field4 rd ++ 0#4 ++ field4 sel ++ 0#12) = .fault .selectorRange) ∧
    ∀ h : sel.val ≤ 3,
      decode (0x33#8 ++ field4 rd ++ 0#4 ++ field4 sel ++ 0#12) = .command (.rdv rd sel) ∧
      ∀ s : State, ∃ t, exec (.rdv rd sel) s = .next t ∧ WritesOnlyX rd s t ∧ t.x[rd] = s.V[sel.val]

/-- `RDO`: the word, the output the selector names, zero-extended, `SelectorRange` beyond 7, and nothing else changed
(R167). -/
def Obligations.RdoCopiesOutput : Prop :=
  ∀ (rd : RegIdx) (sel : Sel),
    (7 < sel.val → decode (0x34#8 ++ field4 rd ++ 0#4 ++ field4 sel ++ 0#12) = .fault .selectorRange) ∧
    ∀ h : sel.val ≤ 7,
      decode (0x34#8 ++ field4 rd ++ 0#4 ++ field4 sel ++ 0#12) = .command (.rdo rd sel) ∧
      ∀ s : State, ∃ t, exec (.rdo rd sel) s = .next t ∧ WritesOnlyX rd s t ∧ t.x[rd] = 0#32 ++ s.O[sel.val]

/-- The message is little-endian: byte `4k + j` is bits `8j+7..8j` of output `k`; read as one little-endian number
the buffer has output 0 in its low 32 bits (R62). -/
def Obligations.MessageIsLittleEndian : Prop :=
  ∀ o : Vector Half 8,
    (∀ (k : Fin 8) (j : Fin 4), (message o)[4 * k.val + j.val] = (o[k]).extractLsb' (8 * j.val) 8) ∧
    ∑ b : Fin 32, ((message o)[b]).toNat * 2 ^ (8 * b.val) = ∑ k : Fin 8, (o[k]).toNat * 2 ^ (32 * k.val)

/-- The digest is big-endian: the random value is the sum of its bytes with byte 0 most significant, and its words
are bytes 24..31, 16..23, 8..15, 0..7 in the order `V[0]`, `V[1]`, `V[2]`, `V[3]` (R63). -/
def Obligations.DigestIsBigEndian : Prop :=
  ∀ D : Digest,
    (randomValue D).toNat = ∑ j : Fin 32, (D[j]).toNat * 2 ^ (8 * (31 - j.val)) ∧
    (∀ w : Fin 4, (splitWords (randomValue D))[w] = (randomValue D).extractLsb' (64 * w.val) 64) ∧
    (∀ w : Fin 4, ((splitWords (randomValue D))[w]).toNat =
      ∑ j : Fin 8, (D[8 * (3 - w.val) + j.val]).toNat * 2 ^ (8 * (7 - j.val)))

/-- The two buses of the hash port: message byte `j` on bits `8j+7..8j`, so output `k` on bits `32k+31..32k`; digest
byte `j` on bits `255-8j..248-8j`, so `V[w]` on bits `64w+63..64w` (R59). -/
def Obligations.HashPortBuses : Prop :=
  (∀ (M : Message) (j : Fin 32), (hashMsgBus M).extractLsb' (8 * j.val) 8 = M[j]) ∧
  (∀ (o : Vector Half 8) (k : Fin 8), (hashMsgBus (message o)).extractLsb' (32 * k.val) 32 = o[k]) ∧
  (∀ (D : Digest) (j : Fin 32), (randomValue D).extractLsb' (248 - 8 * j.val) 8 = D[j]) ∧
  (∀ D : Digest, joinWords (splitWords (randomValue D)) = randomValue D)

/-- The order of the seed writes does not matter (R235). -/
def Obligations.SeedWritesCommute : Prop :=
  ∀ (v w : Sel) (a b : RegIdx) (s : State), v.val ≤ 3 → w.val ≤ 3 → v ≠ w →
    ∃ t, runCommands [.wrs v a, .wrs w b] s = .next t ∧ runCommands [.wrs w b, .wrs v a] s = .next t

/-! ## Immediates and moves -/

/-- `LI`: the word, the sign-extended immediate, `ReservedField` for a nonzero field 19..16, and nothing else changed
(R190). -/
def Obligations.LiSignExtends : Prop :=
  ∀ (rd : RegIdx) (imm : Imm16),
    decode (0x40#8 ++ field4 rd ++ 0#4 ++ imm) = .command (.li rd imm) ∧
    (∀ z : BitVec 4, z ≠ 0 → decode (0x40#8 ++ field4 rd ++ z ++ imm) = .fault .reservedField) ∧
    ∀ s : State, ∃ t, exec (.li rd imm) s = .next t ∧ WritesOnlyX rd s t ∧ t.x[rd] = imm.signExtend 64

/-- `LSI`: the word, the register shifted left by 16 with the immediate inserted, `ReservedField` for a nonzero field
19..16, and nothing else changed (R191). -/
def Obligations.LsiShiftsAndInserts : Prop :=
  ∀ (rd : RegIdx) (imm : Imm16),
    decode (0x41#8 ++ field4 rd ++ 0#4 ++ imm) = .command (.lsi rd imm) ∧
    (∀ z : BitVec 4, z ≠ 0 → decode (0x41#8 ++ field4 rd ++ z ++ imm) = .fault .reservedField) ∧
    ∀ s : State, ∃ t, exec (.lsi rd imm) s = .next t ∧ WritesOnlyX rd s t ∧
      t.x[rd] = (s.x[rd]).extractLsb' 0 48 ++ imm ∧
      t.x[rd] = BitVec.ofNat 64 ((s.x[rd]).toNat * 2 ^ 16 + imm.toNat)

/-- `MV`: the word, the copy of all 64 bits, `ReservedField` for a nonzero field 15..0, the source keeping its value,
and nothing else changed (R192). -/
def Obligations.MvCopiesRegister : Prop :=
  ∀ rd rs1 : RegIdx,
    decode (0x42#8 ++ field4 rd ++ field4 rs1 ++ 0#16) = .command (.mv rd rs1) ∧
    (∀ z : BitVec 16, z ≠ 0 → decode (0x42#8 ++ field4 rd ++ field4 rs1 ++ z) = .fault .reservedField) ∧
    ∀ s : State, ∃ t, exec (.mv rd rs1) s = .next t ∧ WritesOnlyX rd s t ∧ t.x[rd] = s.x[rs1] ∧ t.x[rs1] = s.x[rs1]

/-- The pseudo-instructions do what R93 says of them: `LI64` loads any constant in four commands, `FLI` the Q32.32
value of an integer in two, `SEED4` the seed in four, each with exactly its expansion and no scratch register;
no other register, the control registers included, changes (R93). -/
def Obligations.PseudoInstructionsAreExact : Prop :=
  (∀ (rd : RegIdx) (v : Word) (s : State),
    Asm.li64 rd v = [.li rd (v.extractLsb' 48 16), .lsi rd (v.extractLsb' 32 16), .lsi rd (v.extractLsb' 16 16),
      .lsi rd (v.extractLsb' 0 16)] ∧
    ∃ t, runCommands (Asm.li64 rd v) s = .next t ∧ t.x[rd] = v ∧ (∀ r, r ≠ rd → t.x[r] = s.x[r]) ∧
      SameSeed s t ∧ SameDraw s t ∧ SameControl s t) ∧
  (∀ (rd : RegIdx) (n : Imm16) (s : State), Asm.fli rd n = [.li rd n, .fromint rd rd] ∧
    ∃ t, runCommands (Asm.fli rd n) s = .next t ∧ t.x[rd] = BitVec.ofInt 64 (n.toInt * 2 ^ 32) ∧
      fxValue t.x[rd] = n.toInt ∧ (∀ r, r ≠ rd → t.x[r] = s.x[r]) ∧ SameSeed s t ∧ SameDraw s t ∧
      SameControl s t) ∧
  (∀ (ra rb rc rd4 : RegIdx) (s : State),
    Asm.seed4 ra rb rc rd4 = [.wrs 0 ra, .wrs 1 rb, .wrs 2 rc, .wrs 3 rd4] ∧
    ∃ t, runCommands (Asm.seed4 ra rb rc rd4) s = .next t ∧ t.S = #v[s.x[ra], s.x[rb], s.x[rc], s.x[rd4]] ∧
      SameX s t ∧ SameDraw s t ∧ SameControl s t)

/-- Every word the assembler makes is a legal command: it cannot make a word that faults (R92). -/
def Obligations.AssembledWordsAreLegal : Prop :=
  ∀ (lines : List (List Char)) (ws : List Command), Asm.assemble lines = some ws →
    ∀ w ∈ ws, ∃ i, decode w = .command i

/-! ## Faults -/

/-- Fault entry: an idle, unfaulted unit presented with a word that raises a fault records it in `STATUS` and `FCMD`,
raises the output `fault`, and changes nothing else (R203). -/
def Obligations.FaultEntryRecordsWord : Prop :=
  ∀ (s : State) (w : Command) (c : DecodeFault) (rest : List HostMove),
    s.host = .issue w :: rest → s.busy = false → s.faulted = false → decode w = .fault c →
    ∃ t, step s = .next t ∧ t.faulted = true ∧ t.cause = c.code ∧ t.fcmd = w ∧ t.faultPin = true ∧
      t.status = (match c with | .illegalOpcode => 0x11 | .reservedField => 0x21 | .selectorRange => 0x31) ∧
      SameData s t ∧ t.ci = s.ci ∧ t.busy = false ∧ t.engine = s.engine ∧ t.received = s.received ∧ t.host = rest

/-- The faulted state: a command is refused without being decoded and changes nothing, a host write is ignored, a host
read works, and only reset leaves the state (R205). -/
def Obligations.FaultedUnitRefuses : Prop :=
  ∀ (s : State) (m : HostMove) (rest : List HostMove), s.host = m :: rest → s.busy = false → s.faulted = true →
    (∀ w, m = .issue w → step s = .next { s with host := rest }) ∧
    (∀ sp i v, m = .write sp i v → (sp = .X ∧ i < 16) ∨ (sp = .S ∧ i < 4) → step s = .next { s with host := rest }) ∧
    (∀ sp i v, m = .read sp i → s.element sp i = some v →
      step s = .next { s with host := rest, received := s.received ++ [v] }) ∧
    (∀ t, step s = .next t → t.faulted = false → m = .reset) ∧
    (m = .reset → ∃ t, step s = .next t ∧ t.faulted = false)

/-- The first fault is the one on record: over any number of steps in which the host does not reset, a faulted unit
keeps `STATUS`, `FCMD` and all its data registers (R204, R205). -/
def Obligations.FirstFaultStaysOnRecord : Prop :=
  ∀ (k : Nat) (s t : State), s.busy = false → s.faulted = true → HostMove.reset ∉ s.host.take k →
    Host.Core.run Sys2Proof.core k s = .next t →
    t.faulted = true ∧ SameControl s t ∧ SameData s t ∧ t.busy = false ∧ t.ci = s.ci

/-- Nothing but decoding faults: from every state, whatever the operands and the marks, every legal command answers a
next state without a fault and without touching `STATUS` or `FCMD`; that state is the command completed, with the unit
as busy or idle as it was, and for `CHAIN` with an engine that never answers the wait for its digest (R202, R60). -/
def Obligations.LegalCommandsNeverFault : Prop :=
  ∀ (i : Instr) (s : State), i.wf = true →
    ∃ t, exec i s = .next t ∧ SameControl s t ∧ t.faulted = s.faulted ∧
      (i ≠ .chain ∨ s.engine ≠ .silent → t.busy = s.busy) ∧
      (i = .chain → s.engine = .silent → t = s.awaitDigest)

/-! ## The ports, reset, and the whole machine -/

/-- A step runs the decoded command: when the idle, unfaulted unit is issued a word that decodes to `i`, the step is
`exec i` with that move made, and after it the command index has advanced by one unless the command still waits for
its digest (R27, R53, R88). -/
def Obligations.StepRunsDecodedCommand : Prop :=
  ∀ (s : State) (w : Command) (i : Instr) (rest : List HostMove),
    s.host = .issue w :: rest → s.busy = false → s.faulted = false → decode w = .command i →
    ∃ t, exec i { s with host := rest } = .next t ∧ t.faulted = false ∧
      (t.busy = false → step s = .next { t with ci := s.ci + 1 }) ∧
      (t.busy = true → i = .chain ∧ s.engine = .silent ∧ step s = .next t)

/-- The command index: a command that completes advances it by one, a fault and a refused word leave it, and it
never wraps (R27). -/
def Obligations.CommandIndexCountsCommands : Prop :=
  ∀ (s : State) (w : Command) (rest : List HostMove), s.host = .issue w :: rest → s.busy = false →
    (s.faulted = true → ∃ t, step s = .next t ∧ t.ci = s.ci) ∧
    (s.faulted = false → (∃ c, decode w = .fault c) → ∃ t, step s = .next t ∧ t.ci = s.ci) ∧
    (s.faulted = false → (∃ i, decode w = .command i) → s.engine ≠ .silent →
      ∃ t, step s = .next t ∧ t.ci = s.ci + 1 ∧ t.busy = false ∧ t.faulted = false ∧ t.host = rest)

/-- A program of legal commands, issued to an idle, unfaulted unit whose hash engine answers, comes to its good end in
as many steps as it has commands, whatever moves the host makes after it (R242, R243). A read of an unwritten word,
which R242 counts as refused by the model, runs here and gives the word's value (assumption 1): the run that reads
written words only is the one with `runReadsWritten`, and `WrittenRunsNeverDependOnReset` is about it. -/
def Obligations.LegalProgramReachesGoodEnd : Prop :=
  ∀ (is : List Instr) (more : List HostMove) (s : State), (∀ i ∈ is, i.wf = true) → s.busy = false →
    s.faulted = false → s.engine ≠ .silent →
    ∃ t, Host.Core.run Sys2Proof.core is.length (s.withProgram (is.map encode) more) = .next t ∧
      t.goodEnd (is.map encode) = true ∧ t.host = more

/-- A program one of whose words faults never comes to a good end, from any state and however many steps it is given,
whatever moves the host makes after it, as long as it has not reset the unit (R242, R205). -/
def Obligations.FaultingProgramHasNoGoodEnd : Prop :=
  ∀ (prog : List Command) (more : List HostMove) (k : Nat) (s t : State), (∃ w ∈ prog, ∃ c, decode w = .fault c) →
    HostMove.reset ∉ (s.withProgram prog more).host.take k →
    Host.Core.run Sys2Proof.core k (s.withProgram prog more) = .next t → t.goodEnd prog = false

/-- With no move of the host the idle unit keeps all its state (R217). -/
def Obligations.IdleUnitKeepsState : Prop :=
  ∀ s : State, s.host = [] → s.busy = false → step s = .next s

/-- A host read returns the element it names and changes nothing of the unit, faulted or not, and the same read made
again returns the same; the elements are `x`, `S`, `V`, `O`, `STATUS` and `FCMD` by R51's spaces and indices, and there
are no others: a read of another index is no move (R51, R54, R57, K7; a word never written gives the value it holds,
assumption 1). -/
def Obligations.HostReadHasNoSideEffect : Prop :=
  (∀ (s : State) (sp : Space) (i : Nat) (v : ReadValue) (rest : List HostMove),
    s.host = .read sp i :: .read sp i :: rest → s.busy = false → s.element sp i = some v →
    ∃ t u, step s = .next t ∧ step t = .next u ∧ u.received = s.received ++ [v, v] ∧ u.host = rest ∧
      SameData s u ∧ SameControl s u ∧ u.busy = false ∧ u.ci = s.ci ∧ u.engine = s.engine) ∧
  (∀ s : State,
    (∀ i : Fin 16, s.element .X i.val = some (.wide s.x[i])) ∧
    (∀ w : Fin 4, s.element .S w.val = some (.wide s.S[w]) ∧ s.element .V w.val = some (.wide s.V[w])) ∧
    (∀ k : Fin 8, s.element .O k.val = some (.narrow s.O[k])) ∧
    s.element .CSR 0 = some (.narrow s.status) ∧ s.element .CSR 1 = some (.narrow s.fcmd)) ∧
  (∀ (s : State) (sp : Space) (i : Nat) (rest : List HostMove),
    s.host = .read sp i :: rest → s.busy = false →
    ((sp = .X ∧ 16 ≤ i) ∨ (sp = .S ∧ 4 ≤ i) ∨ (sp = .V ∧ 4 ≤ i) ∨ (sp = .O ∧ 8 ≤ i) ∨ (sp = .CSR ∧ 2 ≤ i)) →
    step s = .refused .noSuchHostMove)

/-- A host write of `X` or `S` to an idle, unfaulted unit writes that word, marks it, and changes nothing else
(R54). -/
def Obligations.HostWriteStoresWord : Prop :=
  ∀ (s : State) (v : Word) (rest : List HostMove), s.busy = false → s.faulted = false →
    (∀ i : RegIdx, s.host = .write .X i.val v :: rest →
      ∃ t, step s = .next t ∧ t.x[i] = v ∧ WritesOnlyX i { s with host := rest } t) ∧
    (∀ w : Fin 4, s.host = .write .S w.val v :: rest →
      ∃ t, step s = .next t ∧ t.S[w] = v ∧ WritesOnlyS w { s with host := rest } t)

/-- A host write to `V`, `O` or `CSR`, or with an index its space does not have, is no move: the machine gives it no
step, and it is no fault of the unit (R55). -/
def Obligations.HostWriteOutsideTableRefused : Prop :=
  ∀ (s : State) (sp : Space) (i : Nat) (v : Word) (rest : List HostMove),
    s.host = .write sp i v :: rest → s.busy = false →
    (sp = .V ∨ sp = .O ∨ sp = .CSR ∨ (sp = .X ∧ 16 ≤ i) ∨ (sp = .S ∧ 4 ≤ i)) →
    step s = .refused .noSuchHostMove

/-- A host access while a command is in progress is no move: the machine gives it no step (R54, R240, K7). -/
def Obligations.HostAccessWhileBusyRefused : Prop :=
  ∀ (s : State) (sp : Space) (i : Nat) (v : Word) (rest : List HostMove), s.busy = true →
    (s.host = .read sp i :: rest ∨ s.host = .write sp i v :: rest) → step s = .refused .hostAccessWhileBusy

/-- Reset, from every state, a command in progress included: `STATUS` and `FCMD` are zero, the output `fault` is 0,
the unit is idle and accepts commands, and every data word is marked unwritten (R230). -/
def Obligations.ResetClearsUnit : Prop :=
  ∀ (s : State) (rest : List HostMove), s.host = .reset :: rest →
    ∃ t, step s = .next t ∧ t.status = 0 ∧ t.fcmd = 0 ∧ t.faulted = false ∧ t.cause = 0 ∧ t.faultPin = false ∧
      t.idle = true ∧ t.host = rest ∧ (∀ r : RegIdx, t.written.x[r] = false) ∧
      (∀ w : Fin 4, t.written.S[w] = false ∧ t.written.V[w] = false) ∧ (∀ k : Fin 8, t.written.O[k] = false)

/-- The reset state meets the invariant of the unit (R36). -/
def Obligations.ResetStateIsLegal : Prop := State.reset.Legal

/-- Every step keeps the invariant of the unit: `STATUS` and `FCMD` are zero or tell the fault that the recorded word
raises; the draw registers are written together, with the seed; a command in progress waits for a silent engine and
the unit is then not faulted (R33, R34, R203, R32, R160, R53, R60). -/
def Obligations.StepKeepsLegal : Prop :=
  ∀ s t : State, s.Legal → step s = .next t → t.Legal

/-- In a legal state `STATUS` has one of its four values, with `CAUSE` = 0 exactly when `FAULT` = 0, and `FCMD` is 0
when `FAULT` = 0 (R33, R34). -/
def Obligations.LegalStatusValues : Prop :=
  ∀ s : State, s.Legal →
    (s.status = 0x00000000 ∨ s.status = 0x00000011 ∨ s.status = 0x00000021 ∨ s.status = 0x00000031) ∧
    (s.faulted = false ↔ s.cause = 0) ∧ (s.faulted = false → s.fcmd = 0) ∧
    (s.faulted = true → s.cause = 1 ∨ s.cause = 2 ∨ s.cause = 3)

/-- Who writes what: a step changes `O` or `V` only by `CHAIN` or reset; `S` only by `WRS`, `CHAIN`, a host write or
reset; `STATUS` or `FCMD` only by a word that faults or reset; `x` only by a command with an `rd`, a host write or
reset (R20, R30, R31, R33, R34). -/
def Obligations.WritersOfEachRegister : Prop :=
  ∀ (s t : State) (m : HostMove) (rest : List HostMove), s.host = m :: rest → step s = .next t →
    (t.O ≠ s.O ∨ t.V ≠ s.V → m = .reset ∨ m = .issue 0x30000000) ∧
    (t.S ≠ s.S → m = .reset ∨ m = .issue 0x30000000 ∨ (∃ w v, m = .write .S w v) ∨
      ∃ w sel rs1, m = .issue w ∧ decode w = .command (.wrs sel rs1)) ∧
    (t.status ≠ s.status ∨ t.fcmd ≠ s.fcmd → m = .reset ∨ ∃ w c, m = .issue w ∧ decode w = .fault c) ∧
    (t.x ≠ s.x → m = .reset ∨ (∃ i v, m = .write .X i v) ∨
      ∃ w i, m = .issue w ∧ decode w = .command i ∧ i ≠ .chain ∧ ∀ sel rs1, i ≠ .wrs sel rs1)

/-- What the unwritten words hold never matters to a run that reads none of them: two states that agree on the written
words take the same step, to states that agree on the written words (R32, R36, K1, K2). So no such run depends on the
reset values the model chose (assumption 1). -/
def Obligations.UnwrittenWordsNeverMatter : Prop :=
  ∀ s s' t : State, AgreeOnWritten s s' → s.stepReadsWritten = true → step s = .next t →
    ∃ t', step s' = .next t' ∧ AgreeOnWritten t t'

/-- The same over a run: a run whose steps read written words only takes, from a state that agrees on the written
words, the same steps to a state that agrees again; two such runs of one program end well together (R32, R242). So no
run that R242 does not count as refused depends on the reset values the model chose (assumption 1). -/
def Obligations.WrittenRunsNeverDependOnReset : Prop :=
  ∀ (k : Nat) (s s' t : State), AgreeOnWritten s s' → s.runReadsWritten k = true →
    Host.Core.run Sys2Proof.core k s = .next t →
    ∃ t', Host.Core.run Sys2Proof.core k s' = .next t' ∧ AgreeOnWritten t t' ∧
      ∀ prog, t'.goodEnd prog = t.goodEnd prog
end

