-- ==== Sys2Proof/Laws/Decode.lean ====
section
/-! SUPPORT. The decoder and the encoder, field by field: a word is its fields put together, the must-be-zero test
of each format in terms of the fields, and the opcode map read in both directions. -/

namespace Sys2Proof

@[simp] theorem opField_layout (op : BitVec 8) (d a b : BitVec 4) : opField (layout op d a b) = op := by
  simp (disch := omega) only [opField, layout, BitVec.extractLsb'_append_eq_of_le]
  exact BitVec.extractLsb'_eq_self

@[simp] theorem rd_bits_layout (op : BitVec 8) (d a b : BitVec 4) : (layout op d a b).extractLsb' 20 4 = d := by
  simp (disch := omega) only [layout, BitVec.extractLsb'_append_eq_of_le, BitVec.extractLsb'_append_eq_of_add_le]
  exact BitVec.extractLsb'_eq_self

@[simp] theorem rs1_bits_layout (op : BitVec 8) (d a b : BitVec 4) : (layout op d a b).extractLsb' 16 4 = a := by
  simp (disch := omega) only [layout, BitVec.extractLsb'_append_eq_of_le, BitVec.extractLsb'_append_eq_of_add_le]
  exact BitVec.extractLsb'_eq_self

@[simp] theorem rs2_bits_layout (op : BitVec 8) (d a b : BitVec 4) : (layout op d a b).extractLsb' 12 4 = b := by
  simp (disch := omega) only [layout, BitVec.extractLsb'_append_eq_of_le, BitVec.extractLsb'_append_eq_of_add_le]
  exact BitVec.extractLsb'_eq_self

@[simp] theorem low_bits_layout (op : BitVec 8) (d a b : BitVec 4) : (layout op d a b).extractLsb' 0 12 = 0 := by
  simp (disch := omega) only [layout, BitVec.extractLsb'_append_eq_of_add_le]
  exact BitVec.extractLsb'_eq_self

/-- A word whose low twelve bits are zero is its four upper fields put together. -/
theorem layout_of_fields (w : Command) (h : w.extractLsb' 0 12 = 0) :
    layout (opField w) (w.extractLsb' 20 4) (w.extractLsb' 16 4) (w.extractLsb' 12 4) = w := by
  unfold layout opField
  rw [← h, BitVec.extractLsb'_append_extractLsb'_eq_extractLsb' (by rfl),
    BitVec.extractLsb'_append_extractLsb'_eq_extractLsb' (by rfl),
    BitVec.extractLsb'_append_extractLsb'_eq_extractLsb' (by rfl),
    BitVec.extractLsb'_append_extractLsb'_eq_extractLsb' (by rfl)]
  exact BitVec.extractLsb'_eq_self

@[simp] theorem opField_layoutImm (op : BitVec 8) (d : BitVec 4) (m : Imm16) : opField (layoutImm op d m) = op := by
  simp (disch := omega) only [opField, layoutImm, BitVec.extractLsb'_append_eq_of_le]
  exact BitVec.extractLsb'_eq_self

@[simp] theorem rd_bits_layoutImm (op : BitVec 8) (d : BitVec 4) (m : Imm16) :
    (layoutImm op d m).extractLsb' 20 4 = d := by
  simp (disch := omega) only [layoutImm, BitVec.extractLsb'_append_eq_of_le, BitVec.extractLsb'_append_eq_of_add_le]
  exact BitVec.extractLsb'_eq_self

@[simp] theorem rs1_bits_layoutImm (op : BitVec 8) (d : BitVec 4) (m : Imm16) :
    (layoutImm op d m).extractLsb' 16 4 = 0 := by
  simp (disch := omega) only [layoutImm, BitVec.extractLsb'_append_eq_of_le, BitVec.extractLsb'_append_eq_of_add_le]
  exact BitVec.extractLsb'_eq_self

@[simp] theorem immField_layoutImm (op : BitVec 8) (d : BitVec 4) (m : Imm16) : immField (layoutImm op d m) = m := by
  simp (disch := omega) only [immField, layoutImm, BitVec.extractLsb'_append_eq_of_add_le]
  exact BitVec.extractLsb'_eq_self

/-- A word with bits 19..16 zero is the fields of format I put together. -/
theorem layoutImm_of_fields (w : Command) (h : w.extractLsb' 16 4 = 0) :
    layoutImm (opField w) (w.extractLsb' 20 4) (immField w) = w := by
  unfold layoutImm opField immField
  rw [← h, BitVec.extractLsb'_append_extractLsb'_eq_extractLsb' (by rfl),
    BitVec.extractLsb'_append_extractLsb'_eq_extractLsb' (by rfl),
    BitVec.extractLsb'_append_extractLsb'_eq_extractLsb' (by rfl)]
  exact BitVec.extractLsb'_eq_self

/-- A masked word is zero exactly when the word is zero at every bit of the mask. -/
theorem and_eq_zero_iff (w m : Command) :
    w &&& m = 0 ↔ ∀ i, i < 32 → m.getLsbD i = true → w.getLsbD i = false := by
  constructor
  · intro h i _ hm
    have hi := congrArg (fun v => v.getLsbD i) h
    simp only [BitVec.getLsbD_and, hm, Bool.and_true, BitVec.ofNat_eq_ofNat, BitVec.getLsbD_zero] at hi
    exact hi
  · intro h
    refine BitVec.eq_of_getLsbD_eq fun i hi => ?_
    have hz := h i hi
    rw [BitVec.getLsbD_and]
    cases hm : m.getLsbD i
    · simp
    · simp [hz hm]

/-- A run of bits of a word is zero exactly when each of its bits is. -/
theorem extract_eq_zero_iff (w : Command) (lo len : Nat) :
    w.extractLsb' lo len = 0 ↔ ∀ i, i < len → w.getLsbD (lo + i) = false := by
  constructor
  · intro h i hi
    have hb := congrArg (fun v => v.getLsbD i) h
    simp only [BitVec.getLsbD_extractLsb', hi, decide_true, Bool.true_and, BitVec.ofNat_eq_ofNat,
      BitVec.getLsbD_zero] at hb
    exact hb
  · intro h
    refine BitVec.eq_of_getLsbD_eq fun i hi => ?_
    simp [BitVec.getLsbD_extractLsb', h i hi]

/-- A bit inside a run of zero bits is zero. -/
theorem bit_of_run {w : Command} {lo len n : Nat} (h : ∀ i, i < len → w.getLsbD (lo + i) = false)
    (hn : lo ≤ n ∧ n < lo + len) : w.getLsbD n = false := by
  have := h (n - lo) (by omega)
  rwa [show lo + (n - lo) = n by omega] at this

/-- The must-be-zero fields of a format (R83). -/
def zeroFields (f : Format) (w : Command) : Prop :=
  match f with
  | .r3 => w.extractLsb' 0 12 = 0
  | .r2 => w.extractLsb' 12 4 = 0 ∧ w.extractLsb' 0 12 = 0
  | .i => w.extractLsb' 16 4 = 0
  | .rs => w.extractLsb' 16 4 = 0 ∧ w.extractLsb' 0 12 = 0
  | .ws => w.extractLsb' 20 4 = 0 ∧ w.extractLsb' 0 12 = 0
  | .n => w.extractLsb' 20 4 = 0 ∧ w.extractLsb' 16 4 = 0 ∧ w.extractLsb' 12 4 = 0 ∧ w.extractLsb' 0 12 = 0

/-- The mask of R84 tests exactly the must-be-zero fields of R83. -/
theorem zmask_iff_zeroFields (f : Format) (w : Command) : w &&& f.zmask = 0 ↔ zeroFields f w := by
  rw [and_eq_zero_iff]
  cases f <;> simp only [zeroFields, extract_eq_zero_iff] <;> constructor
  case r3.mp | i.mp => intro h i hi; exact h _ (by omega) (by revert i; decide)
  case r2.mp | rs.mp | ws.mp =>
    intro h
    exact ⟨fun i hi => h _ (by omega) (by revert i; decide), fun i hi => h _ (by omega) (by revert i; decide)⟩
  case n.mp =>
    intro h
    exact ⟨fun i hi => h _ (by omega) (by revert i; decide), fun i hi => h _ (by omega) (by revert i; decide),
      fun i hi => h _ (by omega) (by revert i; decide), fun i hi => h _ (by omega) (by revert i; decide)⟩
  all_goals intro h i hi hm
  case r3.mpr => interval_cases i <;> first | exact absurd hm (by decide) | exact bit_of_run h (by decide)
  case i.mpr => interval_cases i <;> first | exact absurd hm (by decide) | exact bit_of_run h (by decide)
  case r2.mpr | rs.mpr | ws.mpr =>
    obtain ⟨h1, h2⟩ := h
    interval_cases i <;> first
      | exact absurd hm (by decide)
      | exact bit_of_run h1 (by decide)
      | exact bit_of_run h2 (by decide)
  case n.mpr =>
    obtain ⟨h1, h2, h3, h4⟩ := h
    interval_cases i <;> first
      | exact absurd hm (by decide)
      | exact bit_of_run h1 (by decide)
      | exact bit_of_run h2 (by decide)
      | exact bit_of_run h3 (by decide)
      | exact bit_of_run h4 (by decide)

/-- The opcode map is one to one (R87). -/
theorem Opcode.code_injective (o p : Opcode) (h : o.code = p.code) : o = p := by
  cases o <;> cases p <;> first | rfl | exact absurd h (by decide)

/-- The opcode map read from the `op` byte (R87). -/
theorem Opcode.ofCode_eq_some_iff (b : BitVec 8) (o : Opcode) : Opcode.ofCode b = some o ↔ o.code = b := by
  constructor
  · intro h
    have := List.find?_some h
    simpa using this
  · intro h
    subst h
    cases o <;> decide

@[simp] theorem Opcode.ofCode_code (o : Opcode) : Opcode.ofCode o.code = some o :=
  (Opcode.ofCode_eq_some_iff _ _).2 rfl

/-- A field read from four bits written from a number is that number. -/
theorem nibble_eq (w : Command) (lo : Nat) (r : Fin 16) (h : w.extractLsb' lo 4 = field4 r) :
    nibble w lo = r := by
  apply Fin.ext
  simp [nibble, h, field4]

@[simp] theorem rd_layout (op : BitVec 8) (r : Fin 16) (a b : BitVec 4) : nibble (layout op (field4 r) a b) 20 = r :=
  nibble_eq _ _ _ (by simp)

@[simp] theorem rs1_layout (op : BitVec 8) (r : Fin 16) (d b : BitVec 4) : nibble (layout op d (field4 r) b) 16 = r :=
  nibble_eq _ _ _ (by simp)

@[simp] theorem rs2_layout (op : BitVec 8) (r : Fin 16) (d a : BitVec 4) : nibble (layout op d a (field4 r)) 12 = r :=
  nibble_eq _ _ _ (by simp)

@[simp] theorem rd_layoutImm (op : BitVec 8) (r : Fin 16) (m : Imm16) : nibble (layoutImm op (field4 r) m) 20 = r :=
  nibble_eq _ _ _ (by simp)

/-- The pattern of format R2 written with its sixteen zeros at once (R83). -/
theorem append_zero16 (op : BitVec 8) (d a : BitVec 4) : op ++ d ++ a ++ 0#16 = layout op d a 0 := by
  rw [← layout_of_fields (op ++ d ++ a ++ 0#16)]
  · simp (disch := omega) only [opField, BitVec.extractLsb'_append_eq_of_le, BitVec.extractLsb'_append_eq_of_add_le]
    congr 1 <;> exact BitVec.extractLsb'_eq_self
  · simp (disch := omega) only [BitVec.extractLsb'_append_eq_of_add_le]
    rfl

/-- The four bits of a field, read as a number and written again, are the same bits. -/
@[simp] theorem field4_nibble (w : Command) (lo : Nat) : field4 (nibble w lo) = w.extractLsb' lo 4 := by
  apply BitVec.eq_of_toNat_eq
  have := (w.extractLsb' lo 4).isLt
  simp only [field4, nibble, BitVec.toNat_ofNat, Fin.val_ofNat]
  omega

/-- What an unfaulted decoding says: the opcode is assigned, its must-be-zero fields are zero, its selector is in
range, and the command is the opcode's with the word's fields (R88). -/
theorem decode_eq_command_iff (w : Command) (i : Instr) :
    decode w = .command i ↔
      ∃ o : Opcode, o.code = opField w ∧ zeroFields o.format w ∧ (selField w).val ≤ o.selMax ∧ o.build w = i := by
  unfold decode
  cases ho : Opcode.ofCode (opField w) with
  | none =>
    simp only [reduceCtorEq, false_iff, not_exists]
    rintro o ⟨h, -⟩
    rw [(Opcode.ofCode_eq_some_iff _ _).2 h] at ho
    cases ho
  | some o =>
    have hc := (Opcode.ofCode_eq_some_iff _ _).1 ho
    simp only []
    constructor
    · intro h
      split at h
      · cases h
      · rename_i hz
        split at h
        · cases h
        · rename_i hs
          cases h
          exact ⟨o, hc, (zmask_iff_zeroFields _ _).1 (by simpa using hz), by omega, rfl⟩
    · rintro ⟨p, hp, hz, hs, hb⟩
      obtain rfl := Opcode.code_injective o p (by rw [hc, hp])
      rw [if_neg (by simpa using (zmask_iff_zeroFields _ _).2 hz), if_neg (by omega), hb]

/-- A word with an assigned opcode and a one in a must-be-zero field raises `ReservedField` (R84, R88). -/
theorem decode_reserved {o : Opcode} {w : Command} (h : opField w = o.code) (hz : ¬ zeroFields o.format w) :
    decode w = .fault .reservedField := by
  simp only [decode, h, Opcode.ofCode_code]
  rw [if_pos]
  exact fun h' => hz ((zmask_iff_zeroFields _ _).1 h')

/-- A word with an assigned opcode, zeros where they must be, and a selector out of range raises `SelectorRange`
(R86, R88). -/
theorem decode_selectorRange {o : Opcode} {w : Command} (h : opField w = o.code) (hz : zeroFields o.format w)
    (hs : o.selMax < (selField w).val) : decode w = .fault .selectorRange := by
  simp only [decode, h, Opcode.ofCode_code]
  rw [if_neg, if_pos hs]
  simpa using (zmask_iff_zeroFields _ _).2 hz

end Sys2Proof
end

