-- ==== Sys2Proof/Laws/State.lean ====
section
/-! SUPPORT. One lemma per field per update of `State`, so that no proof unfolds a record update; then the reads of a
register after a write, and `STATUS.FAULT` after each update. -/

namespace Sys2Proof.Machine

section
variable (s : State) (r : RegIdx) (v : Word)
@[simp] theorem State.writeX_x : (s.writeX r v).x = s.x.set r v := rfl
@[simp] theorem State.writeX_S : (s.writeX r v).S = s.S := rfl
@[simp] theorem State.writeX_O : (s.writeX r v).O = s.O := rfl
@[simp] theorem State.writeX_V : (s.writeX r v).V = s.V := rfl
@[simp] theorem State.writeX_status : (s.writeX r v).status = s.status := rfl
@[simp] theorem State.writeX_fcmd : (s.writeX r v).fcmd = s.fcmd := rfl
@[simp] theorem State.writeX_busy : (s.writeX r v).busy = s.busy := rfl
@[simp] theorem State.writeX_engine : (s.writeX r v).engine = s.engine := rfl
@[simp] theorem State.writeX_written : (s.writeX r v).written = { s.written with x := s.written.x.set r true } := rfl
@[simp] theorem State.writeX_ci : (s.writeX r v).ci = s.ci := rfl
@[simp] theorem State.writeX_host : (s.writeX r v).host = s.host := rfl
@[simp] theorem State.writeX_received : (s.writeX r v).received = s.received := rfl
end

section
variable (s : State) (w : Fin 4) (v : Word)
@[simp] theorem State.writeS_x : (s.writeS w v).x = s.x := rfl
@[simp] theorem State.writeS_S : (s.writeS w v).S = s.S.set w v := rfl
@[simp] theorem State.writeS_O : (s.writeS w v).O = s.O := rfl
@[simp] theorem State.writeS_V : (s.writeS w v).V = s.V := rfl
@[simp] theorem State.writeS_status : (s.writeS w v).status = s.status := rfl
@[simp] theorem State.writeS_fcmd : (s.writeS w v).fcmd = s.fcmd := rfl
@[simp] theorem State.writeS_busy : (s.writeS w v).busy = s.busy := rfl
@[simp] theorem State.writeS_engine : (s.writeS w v).engine = s.engine := rfl
@[simp] theorem State.writeS_written : (s.writeS w v).written = { s.written with S := s.written.S.set w true } := rfl
@[simp] theorem State.writeS_ci : (s.writeS w v).ci = s.ci := rfl
@[simp] theorem State.writeS_host : (s.writeS w v).host = s.host := rfl
@[simp] theorem State.writeS_received : (s.writeS w v).received = s.received := rfl
end

section
variable (s : State) (c : DecodeFault) (w : Command)
@[simp] theorem State.takeFault_x : (s.takeFault c w).x = s.x := rfl
@[simp] theorem State.takeFault_S : (s.takeFault c w).S = s.S := rfl
@[simp] theorem State.takeFault_O : (s.takeFault c w).O = s.O := rfl
@[simp] theorem State.takeFault_V : (s.takeFault c w).V = s.V := rfl
@[simp] theorem State.takeFault_status : (s.takeFault c w).status = statusWord c.code := rfl
@[simp] theorem State.takeFault_fcmd : (s.takeFault c w).fcmd = w := rfl
@[simp] theorem State.takeFault_busy : (s.takeFault c w).busy = s.busy := rfl
@[simp] theorem State.takeFault_engine : (s.takeFault c w).engine = s.engine := rfl
@[simp] theorem State.takeFault_written : (s.takeFault c w).written = s.written := rfl
@[simp] theorem State.takeFault_ci : (s.takeFault c w).ci = s.ci := rfl
@[simp] theorem State.takeFault_host : (s.takeFault c w).host = s.host := rfl
@[simp] theorem State.takeFault_received : (s.takeFault c w).received = s.received := rfl
end

section
variable (s : State) (o : Vector Half 8) (v q : Vector Word 4)
@[simp] theorem State.writeDraw_x : (s.writeDraw o v q).x = s.x := rfl
@[simp] theorem State.writeDraw_S : (s.writeDraw o v q).S = q := rfl
@[simp] theorem State.writeDraw_O : (s.writeDraw o v q).O = o := rfl
@[simp] theorem State.writeDraw_V : (s.writeDraw o v q).V = v := rfl
@[simp] theorem State.writeDraw_status : (s.writeDraw o v q).status = s.status := rfl
@[simp] theorem State.writeDraw_fcmd : (s.writeDraw o v q).fcmd = s.fcmd := rfl
@[simp] theorem State.writeDraw_busy : (s.writeDraw o v q).busy = s.busy := rfl
@[simp] theorem State.writeDraw_engine : (s.writeDraw o v q).engine = s.engine := rfl
@[simp] theorem State.writeDraw_written : (s.writeDraw o v q).written = s.written.drawn := rfl
@[simp] theorem State.writeDraw_ci : (s.writeDraw o v q).ci = s.ci := rfl
@[simp] theorem State.writeDraw_host : (s.writeDraw o v q).host = s.host := rfl
@[simp] theorem State.writeDraw_received : (s.writeDraw o v q).received = s.received := rfl
end

section
variable (s : State)
@[simp] theorem State.awaitDigest_x : (s.awaitDigest).x = s.x := rfl
@[simp] theorem State.awaitDigest_S : (s.awaitDigest).S = s.S := rfl
@[simp] theorem State.awaitDigest_O : (s.awaitDigest).O = s.O := rfl
@[simp] theorem State.awaitDigest_V : (s.awaitDigest).V = s.V := rfl
@[simp] theorem State.awaitDigest_status : (s.awaitDigest).status = s.status := rfl
@[simp] theorem State.awaitDigest_fcmd : (s.awaitDigest).fcmd = s.fcmd := rfl
@[simp] theorem State.awaitDigest_busy : (s.awaitDigest).busy = true := rfl
@[simp] theorem State.awaitDigest_engine : (s.awaitDigest).engine = s.engine := rfl
@[simp] theorem State.awaitDigest_written : (s.awaitDigest).written = s.written := rfl
@[simp] theorem State.awaitDigest_ci : (s.awaitDigest).ci = s.ci := rfl
@[simp] theorem State.awaitDigest_host : (s.awaitDigest).host = s.host := rfl
@[simp] theorem State.awaitDigest_received : (s.awaitDigest).received = s.received := rfl
end

section
variable (s : State)
@[simp] theorem State.moveMade_x : (s.moveMade).x = s.x := rfl
@[simp] theorem State.moveMade_S : (s.moveMade).S = s.S := rfl
@[simp] theorem State.moveMade_O : (s.moveMade).O = s.O := rfl
@[simp] theorem State.moveMade_V : (s.moveMade).V = s.V := rfl
@[simp] theorem State.moveMade_status : (s.moveMade).status = s.status := rfl
@[simp] theorem State.moveMade_fcmd : (s.moveMade).fcmd = s.fcmd := rfl
@[simp] theorem State.moveMade_busy : (s.moveMade).busy = s.busy := rfl
@[simp] theorem State.moveMade_engine : (s.moveMade).engine = s.engine := rfl
@[simp] theorem State.moveMade_written : (s.moveMade).written = s.written := rfl
@[simp] theorem State.moveMade_ci : (s.moveMade).ci = s.ci := rfl
@[simp] theorem State.moveMade_host : (s.moveMade).host = s.host.tail := rfl
@[simp] theorem State.moveMade_received : (s.moveMade).received = s.received := rfl
end

section
variable (s : State) (v : ReadValue)
@[simp] theorem State.receive_x : (s.receive v).x = s.x := rfl
@[simp] theorem State.receive_S : (s.receive v).S = s.S := rfl
@[simp] theorem State.receive_O : (s.receive v).O = s.O := rfl
@[simp] theorem State.receive_V : (s.receive v).V = s.V := rfl
@[simp] theorem State.receive_status : (s.receive v).status = s.status := rfl
@[simp] theorem State.receive_fcmd : (s.receive v).fcmd = s.fcmd := rfl
@[simp] theorem State.receive_busy : (s.receive v).busy = s.busy := rfl
@[simp] theorem State.receive_engine : (s.receive v).engine = s.engine := rfl
@[simp] theorem State.receive_written : (s.receive v).written = s.written := rfl
@[simp] theorem State.receive_ci : (s.receive v).ci = s.ci := rfl
@[simp] theorem State.receive_host : (s.receive v).host = s.host := rfl
@[simp] theorem State.receive_received : (s.receive v).received = s.received ++ [v] := rfl
end

section
variable (s : State) (m : HostMove)
@[simp] theorem State.pushMove_x : (s.pushMove m).x = s.x := rfl
@[simp] theorem State.pushMove_S : (s.pushMove m).S = s.S := rfl
@[simp] theorem State.pushMove_O : (s.pushMove m).O = s.O := rfl
@[simp] theorem State.pushMove_V : (s.pushMove m).V = s.V := rfl
@[simp] theorem State.pushMove_status : (s.pushMove m).status = s.status := rfl
@[simp] theorem State.pushMove_fcmd : (s.pushMove m).fcmd = s.fcmd := rfl
@[simp] theorem State.pushMove_busy : (s.pushMove m).busy = s.busy := rfl
@[simp] theorem State.pushMove_engine : (s.pushMove m).engine = s.engine := rfl
@[simp] theorem State.pushMove_written : (s.pushMove m).written = s.written := rfl
@[simp] theorem State.pushMove_ci : (s.pushMove m).ci = s.ci := rfl
@[simp] theorem State.pushMove_host : (s.pushMove m).host = m :: s.host := rfl
@[simp] theorem State.pushMove_received : (s.pushMove m).received = s.received := rfl
end

section
variable (s : State)
@[simp] theorem State.afterReset_x : (s.afterReset).x = Vector.replicate 16 0 := rfl
@[simp] theorem State.afterReset_S : (s.afterReset).S = Vector.replicate 4 0 := rfl
@[simp] theorem State.afterReset_O : (s.afterReset).O = Vector.replicate 8 0 := rfl
@[simp] theorem State.afterReset_V : (s.afterReset).V = Vector.replicate 4 0 := rfl
@[simp] theorem State.afterReset_status : (s.afterReset).status = 0 := rfl
@[simp] theorem State.afterReset_fcmd : (s.afterReset).fcmd = 0 := rfl
@[simp] theorem State.afterReset_busy : (s.afterReset).busy = false := rfl
@[simp] theorem State.afterReset_engine : (s.afterReset).engine = s.engine := rfl
@[simp] theorem State.afterReset_written : (s.afterReset).written = Written.none := rfl
@[simp] theorem State.afterReset_ci : (s.afterReset).ci = 0 := rfl
@[simp] theorem State.afterReset_host : (s.afterReset).host = s.host := rfl
@[simp] theorem State.afterReset_received : (s.afterReset).received = s.received := rfl
end

section
variable (s : State) (p : List Command) (q : List HostMove)
@[simp] theorem State.withProgram_x : (s.withProgram p q).x = s.x := rfl
@[simp] theorem State.withProgram_S : (s.withProgram p q).S = s.S := rfl
@[simp] theorem State.withProgram_O : (s.withProgram p q).O = s.O := rfl
@[simp] theorem State.withProgram_V : (s.withProgram p q).V = s.V := rfl
@[simp] theorem State.withProgram_status : (s.withProgram p q).status = s.status := rfl
@[simp] theorem State.withProgram_fcmd : (s.withProgram p q).fcmd = s.fcmd := rfl
@[simp] theorem State.withProgram_busy : (s.withProgram p q).busy = s.busy := rfl
@[simp] theorem State.withProgram_engine : (s.withProgram p q).engine = s.engine := rfl
@[simp] theorem State.withProgram_written : (s.withProgram p q).written = s.written := rfl
@[simp] theorem State.withProgram_ci : (s.withProgram p q).ci = 0 := rfl
@[simp] theorem State.withProgram_host : (s.withProgram p q).host = p.map .issue ++ q := rfl
@[simp] theorem State.withProgram_received : (s.withProgram p q).received = s.received := rfl
end

section
variable (s : State)
@[simp] theorem State.commandDone_x : s.commandDone.x = s.x := by
  unfold State.commandDone; split <;> rfl
@[simp] theorem State.commandDone_S : s.commandDone.S = s.S := by
  unfold State.commandDone; split <;> rfl
@[simp] theorem State.commandDone_O : s.commandDone.O = s.O := by
  unfold State.commandDone; split <;> rfl
@[simp] theorem State.commandDone_V : s.commandDone.V = s.V := by
  unfold State.commandDone; split <;> rfl
@[simp] theorem State.commandDone_status : s.commandDone.status = s.status := by
  unfold State.commandDone; split <;> rfl
@[simp] theorem State.commandDone_fcmd : s.commandDone.fcmd = s.fcmd := by
  unfold State.commandDone; split <;> rfl
@[simp] theorem State.commandDone_busy : s.commandDone.busy = s.busy := by
  unfold State.commandDone; split <;> rfl
@[simp] theorem State.commandDone_engine : s.commandDone.engine = s.engine := by
  unfold State.commandDone; split <;> rfl
@[simp] theorem State.commandDone_written : s.commandDone.written = s.written := by
  unfold State.commandDone; split <;> rfl
@[simp] theorem State.commandDone_host : s.commandDone.host = s.host := by
  unfold State.commandDone; split <;> rfl
@[simp] theorem State.commandDone_received : s.commandDone.received = s.received := by
  unfold State.commandDone; split <;> rfl
end

/-- The command index advances by one when the command has completed without a fault (R27). -/
theorem State.commandDone_ci (s : State) :
    s.commandDone.ci = if s.busy || s.faulted then s.ci else s.ci + 1 := by
  unfold State.commandDone; split <;> rfl

/-- `STATUS.FAULT` depends on `STATUS` alone (R33). -/
theorem State.faulted_eq_of_status {s t : State} (h : t.status = s.status) : t.faulted = s.faulted := by
  simp [State.faulted, h]

@[simp] theorem State.commandDone_faulted (s : State) : s.commandDone.faulted = s.faulted :=
  State.faulted_eq_of_status (by simp)

@[simp] theorem State.writeX_faulted (s : State) (r : RegIdx) (v : Word) : (s.writeX r v).faulted = s.faulted := rfl

@[simp] theorem State.writeS_faulted (s : State) (w : Fin 4) (v : Word) : (s.writeS w v).faulted = s.faulted := rfl

@[simp] theorem State.writeDraw_faulted (s : State) (o : Vector Half 8) (v q : Vector Word 4) :
    (s.writeDraw o v q).faulted = s.faulted := rfl

@[simp] theorem State.awaitDigest_faulted (s : State) : s.awaitDigest.faulted = s.faulted := rfl

@[simp] theorem State.moveMade_faulted (s : State) : s.moveMade.faulted = s.faulted := rfl

@[simp] theorem State.receive_faulted (s : State) (v : ReadValue) : (s.receive v).faulted = s.faulted := rfl

@[simp] theorem State.pushMove_faulted (s : State) (m : HostMove) : (s.pushMove m).faulted = s.faulted := rfl

@[simp] theorem State.withProgram_faulted (s : State) (p : List Command) (q : List HostMove) :
    (s.withProgram p q).faulted = s.faulted := rfl

@[simp] theorem State.afterReset_faulted (s : State) : s.afterReset.faulted = false := by
  simp [State.faulted]

/-- The status of a taken fault has `FAULT` = 1 (R203). -/
theorem statusWord_fault (c : DecodeFault) : (statusWord c.code).getLsbD 0 = true := by
  cases c <;> decide

@[simp] theorem State.takeFault_faulted
    (s : State) (c : DecodeFault) (w : Command) : (s.takeFault c w).faulted = true :=
  statusWord_fault c

@[simp] theorem State.readX_eq (s : State) (r : RegIdx) : s.readX r = s.x[r] := rfl

/-- Read after write of the same register (R24). -/
@[simp] theorem State.writeX_read_same (s : State) (r : RegIdx) (v : Word) : (s.writeX r v).x[r] = v := by
  simp

/-- Read after write of another register (R24). -/
theorem State.writeX_read_other (s : State) {r q : RegIdx} (v : Word) (h : q ≠ r) : (s.writeX r v).x[q] = s.x[q] := by
  have : r.val ≠ q.val := fun e => h (Fin.ext e.symm)
  simp [this]

/-- Read after write of the same seed word (R165). -/
@[simp] theorem State.writeS_read_same (s : State) (w : Fin 4) (v : Word) : (s.writeS w v).S[w] = v := by
  simp

/-- Read after write of another seed word (R165). -/
theorem State.writeS_read_other (s : State) {w q : Fin 4} (v : Word) (h : q ≠ w) : (s.writeS w v).S[q] = s.S[q] := by
  have : w.val ≠ q.val := fun e => h (Fin.ext e.symm)
  simp [this]

end Sys2Proof.Machine
end

