-- ==== Sys2Proof/Laws/Ops.lean ====
section
/-! SUPPORT. What each shared operation can do, said once: the selectors, the meaning of a command as one of five
shapes, the move of the host, and the step. -/

namespace Sys2Proof.Machine

/-- The sentinel rule of the spec's unit lets every result stand (R119). -/
@[simp] theorem nanOr_spec (ops : List Word) (r : Word) : nanOr Config.nanAbsorbs ops r = r := by
  simp [nanOr, Config.nanAbsorbs]

theorem wordSel_of_le {sel : Sel} (h : sel.val ≤ 3) : wordSel sel = some ⟨sel.val, by omega⟩ := by
  simp [wordSel, show sel.val < 4 by omega]

theorem wordSel_of_gt {sel : Sel} (h : 3 < sel.val) : wordSel sel = none := by
  simp [wordSel, show ¬ sel.val < 4 by omega]

theorem outSel_of_le {sel : Sel} (h : sel.val ≤ 7) : outSel sel = some ⟨sel.val, by omega⟩ := by
  simp [outSel, show sel.val < 8 by omega]

theorem outSel_of_gt {sel : Sel} (h : 7 < sel.val) : outSel sel = none := by
  simp [outSel, show ¬ sel.val < 8 by omega]

/-- The engine answers, unless it is the silent one (R60, K8). -/
theorem HashEngine.reply_eq_none_iff (e : HashEngine) (m : Message) : e.reply m = none ↔ e = .silent := by
  cases e <;> simp [HashEngine.reply]

/-- `CHAIN` with its digest (R160). -/
theorem execChain_answered {s : State} {d : Digest}
    (h : s.engine.reply (message (drawOutputs Config.rotDir Config.outFrom s.S)) = some d) :
    execChain s = .next (s.writeDraw (drawOutputs Config.rotDir Config.outFrom s.S) (splitWords (randomValue d))
      (nextSeed s.S)) := by
  simp [execChain, h]

/-- `CHAIN` without its digest (R60, R161). -/
theorem execChain_silent {s : State} (h : s.engine = .silent) : execChain s = .next s.awaitDigest := by
  simp [execChain, h, HashEngine.reply]

/-- `RDS` of a word in range (R164). -/
theorem execRds_inRange (rd : RegIdx) {sel : Sel} (s : State) (h : sel.val ≤ 3) :
    execRds rd sel s = .next (s.writeX rd s.S[sel.val]) := by
  simp only [execRds, wordSel_of_le h]
  rfl

/-- `WRS` of a word in range (R165). -/
theorem execWrs_inRange {sel : Sel} (rs1 : RegIdx) (s : State) (h : sel.val ≤ 3) :
    execWrs sel rs1 s = .next (s.writeS ⟨sel.val, by omega⟩ s.x[rs1]) := by
  simp only [execWrs, wordSel_of_le h, State.readX_eq]

/-- `RDV` of a word in range (R166). -/
theorem execRdv_inRange (rd : RegIdx) {sel : Sel} (s : State) (h : sel.val ≤ 3) :
    execRdv rd sel s = .next (s.writeX rd s.V[sel.val]) := by
  simp only [execRdv, wordSel_of_le h]
  rfl

/-- `RDO` of an output in range (R167). -/
theorem execRdo_inRange (rd : RegIdx) {sel : Sel} (s : State) (h : sel.val ≤ 7) :
    execRdo rd sel s = .next (s.writeX rd (zext64 s.O[sel.val])) := by
  simp only [execRdo, outSel_of_le h]
  rfl

/-- What a legal command can do: write one general register, write one seed word, write a draw, or wait for a digest
that does not come (R20, R22, R160). -/
inductive Effect (i : Instr) (s : State) : State → Prop where
  | register (rd : RegIdx) (v : Word) (h : i ≠ .chain) : Effect i s (s.writeX rd v)
  | seed (w : Fin 4) (v : Word) (h : i ≠ .chain) : Effect i s (s.writeS w v)
  | draw (o : Vector Half 8) (v q : Vector Word 4) (h : i = .chain) : Effect i s (s.writeDraw o v q)
  | waits (h : i = .chain) (he : s.engine = .silent) : Effect i s s.awaitDigest

/-- Every legal command completes or waits in one of those shapes; none faults and none is refused (R202). -/
theorem exec_effect (i : Instr) (s : State) (hi : i.wf = true) : ∃ t, exec i s = .next t ∧ Effect i s t := by
  cases i with
  | chain =>
    cases h : s.engine.reply (message (drawOutputs Config.rotDir Config.outFrom s.S)) with
    | none =>
      have he := (HashEngine.reply_eq_none_iff _ _).1 h
      exact ⟨_, execChain_silent he, .waits rfl he⟩
    | some d => exact ⟨_, execChain_answered h, .draw _ _ _ rfl⟩
  | rds rd sel =>
    have hs : sel.val ≤ 3 := by simpa [Instr.wf] using hi
    exact ⟨_, execRds_inRange _ s hs, .register _ _ (by simp)⟩
  | wrs sel rs1 =>
    have hs : sel.val ≤ 3 := by simpa [Instr.wf] using hi
    exact ⟨_, execWrs_inRange _ s hs, .seed _ _ (by simp)⟩
  | rdv rd sel =>
    have hs : sel.val ≤ 3 := by simpa [Instr.wf] using hi
    exact ⟨_, execRdv_inRange _ s hs, .register _ _ (by simp)⟩
  | rdo rd sel =>
    have hs : sel.val ≤ 7 := by simpa [Instr.wf] using hi
    exact ⟨_, execRdo_inRange _ s hs, .register _ _ (by simp)⟩
  | fromint _ _ | add _ _ _ | sub _ _ _ | mul _ _ _ | div _ _ _ | adv _ _ | out _ _ | rotr32 _ _ _ | rotr64 _ _ _
  | li _ _ | lsi _ _ | mv _ _ => exact ⟨_, rfl, .register _ _ (by simp)⟩

/-- The command of a decoded word is well formed (R86, R88). -/
theorem wf_of_build {o : Opcode} {w : Command} (h : (selField w).val ≤ o.selMax) : (o.build w).wf = true := by
  cases o <;> simp_all [Opcode.build, Instr.wf, Opcode.selMax]

/-- A move of the host that has a next state did one of these: a read, a write or an ignored write, a refused, a
legal or a faulting command, or a reset. -/
inductive MoveEffect (s : State) : HostMove → State → Prop where
  | read (sp : Space) (i : Nat) (v : ReadValue) (hb : s.busy = false) (h : s.element sp i = some v) :
      MoveEffect s (.read sp i) (s.receive v).moveMade
  | ignored (sp : Space) (i : Nat) (v : Word) (hb : s.busy = false) (hf : s.faulted = true) :
      MoveEffect s (.write sp i v) s.moveMade
  | writeX (i : RegIdx) (v : Word) (hb : s.busy = false) (hf : s.faulted = false) :
      MoveEffect s (.write .X i.val v) (s.writeX i v).moveMade
  | writeS (i : Fin 4) (v : Word) (hb : s.busy = false) (hf : s.faulted = false) :
      MoveEffect s (.write .S i.val v) (s.writeS i v).moveMade
  | refused (w : Command) (hb : s.busy = false) (hf : s.faulted = true) : MoveEffect s (.issue w) s.moveMade
  | faults (w : Command) (c : DecodeFault) (hb : s.busy = false) (hf : s.faulted = false) (hd : decode w = .fault c) :
      MoveEffect s (.issue w) (s.moveMade.takeFault c w)
  | runs (w : Command) (i : Instr) (t : State) (hb : s.busy = false) (hf : s.faulted = false)
      (hd : decode w = .command i) (hi : i.wf = true) (he : exec i s.moveMade = .next t)
      (ht : Effect i s.moveMade t) : MoveEffect s (.issue w) t.commandDone
  | reset : MoveEffect s .reset s.moveMade.afterReset

/-- What one move of the host can do, if it has a next state. -/
theorem hostMove_effect {m : HostMove} {s t : State} (h : hostMove m s = .next t) : MoveEffect s m t := by
  cases m with
  | read sp i =>
    simp only [hostMove, hostRead] at h
    split at h
    · cases h
    · rename_i hb
      split at h
      · cases h; exact .read _ _ _ (by simpa using hb) ‹_›
      · cases h
  | write sp i v =>
    simp only [hostMove, hostWrite] at h
    split at h
    · cases h
    · rename_i hb
      have hb : s.busy = false := by simpa using hb
      cases hf : s.faulted
      · cases sp with
        | X =>
          simp only [] at h
          split at h
          · rename_i hi
            cases h
            simp only [unlessFaulted, hf, Bool.false_eq_true, if_false]
            exact .writeX ⟨i, hi⟩ v hb hf
          · cases h
        | S =>
          simp only [] at h
          split at h
          · rename_i hi
            cases h
            simp only [unlessFaulted, hf, Bool.false_eq_true, if_false]
            exact .writeS ⟨i, hi⟩ v hb hf
          · cases h
        | V | O | CSR => cases h
      · cases sp with
        | X | S =>
          simp only [] at h
          split at h
          · cases h
            simp only [unlessFaulted, hf, if_true]
            exact .ignored _ _ _ hb hf
          · cases h
        | V | O | CSR => cases h
  | issue w =>
    simp only [hostMove, issueCommand] at h
    split at h
    · cases h
    · rename_i hb
      have hb : s.busy = false := by simpa using hb
      split at h
      · rename_i hf; cases h; exact .refused _ hb hf
      · rename_i hf
        have hf : s.faulted = false := by simpa using hf
        simp only [accept] at h
        split at h
        · rename_i i hd
          obtain ⟨o, -, -, hs, rfl⟩ := (decode_eq_command_iff _ _).1 hd
          obtain ⟨u, hu, he⟩ := exec_effect (o.build w) s.moveMade (wf_of_build hs)
          simp only [runCommand, hu] at h
          cases h
          exact .runs _ _ _ hb hf hd (wf_of_build hs) hu he
        · rename_i c hd; cases h; exact .faults _ _ hb hf hd
  | reset => cases h; exact .reset

/-- What one step can do, if it has a next state: nothing when the host makes no move, or the next move. -/
theorem step_effect {s t : State} (h : step s = .next t) :
    (s.host = [] ∧ t = s ∧ s.busy = false) ∨ ∃ m rest, s.host = m :: rest ∧ MoveEffect s m t := by
  unfold step at h
  split at h
  · rename_i hh
    simp only [noMove] at h
    split at h
    · cases h
    · rename_i hb; cases h; exact .inl ⟨hh, rfl, by simpa using hb⟩
  · rename_i m rest hh
    exact .inr ⟨m, rest, hh, hostMove_effect h⟩

end Sys2Proof.Machine
end

