-- ==== Sys2Proof/Laws/Arith.lean ====
section
/-! SUPPORT. What the arithmetic of the data path computes, said once: the rotate, products and quotients that fit
their 64 bits, the bytes of the message. -/

namespace Sys2Proof.Machine

/-- The unit's rotate is the library's rotation to the right (R144). -/
theorem rotrW_eq_rotateRight {W : Nat} (v : BitVec W) (n : Nat) : rotrW v n = v.rotateRight n := by
  unfold rotrW
  simp only []
  split
  · rename_i h
    rw [BitVec.rotateRight_def, h]
    simp
  · rw [BitVec.rotateRight_def]

/-- An integer that fits 64 bits is kept by wrapping (R11). -/
theorem wrap64_toInt {z : Int} (h : -(2 ^ 63) ≤ z) (h' : z < 2 ^ 63) : (wrap64 z).toInt = z := by
  unfold wrap64
  rw [BitVec.toInt_ofInt]
  exact Int.bmod_eq_of_le (by norm_num; omega) (by norm_num; omega)

/-- A product that fits is the floor of the exact one (R115). -/
theorem fxMul_toInt {a b : Word} (h : -(2 ^ 63) ≤ (a.toInt * b.toInt) / 2 ^ 32)
    (h' : (a.toInt * b.toInt) / 2 ^ 32 < 2 ^ 63) : (fxMul a b).toInt = (a.toInt * b.toInt) / 2 ^ 32 := by
  unfold fxMul
  rw [Int.shiftRight_eq_div_pow]
  exact wrap64_toInt h h'

/-- A quotient that fits is the exact one, truncated (R116). -/
theorem fxDiv_toInt {a b : Word} (hb : b ≠ 0) (h : -(2 ^ 63) ≤ (a.toInt * 2 ^ 32).tdiv b.toInt)
    (h' : (a.toInt * 2 ^ 32).tdiv b.toInt < 2 ^ 63) :
    (fxDiv Config.divWide a b).toInt = (a.toInt * 2 ^ 32).tdiv b.toInt := by
  unfold fxDiv
  rw [if_neg hb]
  exact wrap64_toInt h h'

/-- Byte `4k + j` of the message (R62). -/
theorem message_byte (o : Vector Half 8) (k : Fin 8) (j : Fin 4) :
    (message o)[4 * k.val + j.val] = (o[k]).extractLsb' (8 * j.val) 8 := by
  have hk : (4 * k.val + j.val) / 4 = k.val := by omega
  have hj : (4 * k.val + j.val) % 4 = j.val := by omega
  simp [message, hk, hj]

end Sys2Proof.Machine
end

