-- ==== Sys2Proof/Laws/Frames.lean ====
section
/-! SUPPORT. The frames of the shared updates, in the terms of Safety.lean: the writes change one word, and each
relation holds of a state and itself. -/

namespace Sys2Proof.Machine

@[simp] theorem SameControl.rfl' (s : State) : SameControl s s := ⟨rfl, rfl⟩

@[simp] theorem SameDraw.rfl' (s : State) : SameDraw s s := ⟨rfl, rfl, rfl, rfl⟩

@[simp] theorem SameSeed.rfl' (s : State) : SameSeed s s := ⟨rfl, rfl⟩

@[simp] theorem SameX.rfl' (s : State) : SameX s s := ⟨rfl, rfl⟩

@[simp] theorem SameData.rfl' (s : State) : SameData s s := ⟨⟨rfl, rfl⟩, ⟨rfl, rfl⟩, ⟨rfl, rfl, rfl, rfl⟩⟩

@[simp] theorem SameFrame.rfl' (s : State) : SameFrame s s := ⟨rfl, rfl, rfl, rfl, rfl⟩

/-- A mark after another one is set. -/
theorem mark_other {n : Nat} (m : Vector Bool n) {r q : Fin n} (h : q ≠ r) : (m.set r true)[q] = m[q] := by
  have : r.val ≠ q.val := fun e => h (Fin.ext e.symm)
  simp [this]

/-- A write of a general register changes it and nothing else (R22, R24). -/
theorem writeX_writesOnlyX (s : State) (rd : RegIdx) (v : Word) : WritesOnlyX rd s (s.writeX rd v) where
  reg := ⟨fun _ h => ⟨State.writeX_read_other s v h, mark_other _ h⟩, by simp⟩
  seed := ⟨rfl, rfl⟩
  draw := ⟨rfl, rfl, rfl, rfl⟩
  control := ⟨rfl, rfl⟩
  frame := ⟨rfl, rfl, rfl, rfl, rfl⟩

/-- A write of a seed word changes it and nothing else (R165). -/
theorem writeS_writesOnlyS (s : State) (w : Fin 4) (v : Word) : WritesOnlyS w s (s.writeS w v) where
  x := ⟨rfl, rfl⟩
  others := fun _ h => ⟨State.writeS_read_other s v h, mark_other _ h⟩
  marked := by simp
  draw := ⟨rfl, rfl, rfl, rfl⟩
  control := ⟨rfl, rfl⟩
  frame := ⟨rfl, rfl, rfl, rfl, rfl⟩

/-- No effect of a legal command touches the control registers (R202). -/
theorem Effect.sameControl {i : Instr} {s t : State} (h : Effect i s t) : SameControl s t := by
  cases h <;> exact ⟨rfl, rfl⟩

/-- Any effect of a legal command leaves the host's moves, what it has read and the engine alone. -/
theorem Effect.sameHost {i : Instr} {s t : State} (h : Effect i s t) :
    t.host = s.host ∧ t.received = s.received ∧ t.engine = s.engine ∧ t.ci = s.ci := by
  cases h <;> exact ⟨rfl, rfl, rfl, rfl⟩

end Sys2Proof.Machine
end

