-- ==== Sys2Proof/Laws/PerInstr.lean ====
section
/-! SUPPORT. The family `EncodeFields`: the word of a command holds its opcode, and zeros where its format wants
zeros (30_encoding.md R83, R84, R87). One lemma per command. -/

namespace Sys2Proof.Laws.EncodeFields

/-- The word's `op` byte is the command's and its must-be-zero fields are zero. -/
def Statement (i : Instr) : Prop :=
  opField (encode i) = i.opcode.code ∧ zeroFields i.opcode.format (encode i)

theorem fromint (rd rs1 : RegIdx) : Statement (.fromint rd rs1) := by
  simp [Statement, encode, Instr.opcode, Opcode.format, zeroFields]

theorem add (rd rs1 rs2 : RegIdx) : Statement (.add rd rs1 rs2) := by
  simp [Statement, encode, Instr.opcode, Opcode.format, zeroFields]

theorem sub (rd rs1 rs2 : RegIdx) : Statement (.sub rd rs1 rs2) := by
  simp [Statement, encode, Instr.opcode, Opcode.format, zeroFields]

theorem mul (rd rs1 rs2 : RegIdx) : Statement (.mul rd rs1 rs2) := by
  simp [Statement, encode, Instr.opcode, Opcode.format, zeroFields]

theorem div (rd rs1 rs2 : RegIdx) : Statement (.div rd rs1 rs2) := by
  simp [Statement, encode, Instr.opcode, Opcode.format, zeroFields]

theorem adv (rd rs1 : RegIdx) : Statement (.adv rd rs1) := by
  simp [Statement, encode, Instr.opcode, Opcode.format, zeroFields]

theorem out (rd rs1 : RegIdx) : Statement (.out rd rs1) := by
  simp [Statement, encode, Instr.opcode, Opcode.format, zeroFields]

theorem rotr32 (rd rs1 rs2 : RegIdx) : Statement (.rotr32 rd rs1 rs2) := by
  simp [Statement, encode, Instr.opcode, Opcode.format, zeroFields]

theorem rotr64 (rd rs1 rs2 : RegIdx) : Statement (.rotr64 rd rs1 rs2) := by
  simp [Statement, encode, Instr.opcode, Opcode.format, zeroFields]

theorem chain : Statement .chain := by
  simp [Statement, encode, Instr.opcode, Opcode.format, zeroFields]

theorem rds (rd : RegIdx) (sel : Sel) : Statement (.rds rd sel) := by
  simp [Statement, encode, Instr.opcode, Opcode.format, zeroFields]

theorem wrs (sel : Sel) (rs1 : RegIdx) : Statement (.wrs sel rs1) := by
  simp [Statement, encode, Instr.opcode, Opcode.format, zeroFields]

theorem rdv (rd : RegIdx) (sel : Sel) : Statement (.rdv rd sel) := by
  simp [Statement, encode, Instr.opcode, Opcode.format, zeroFields]

theorem rdo (rd : RegIdx) (sel : Sel) : Statement (.rdo rd sel) := by
  simp [Statement, encode, Instr.opcode, Opcode.format, zeroFields]

theorem li (rd : RegIdx) (imm : Imm16) : Statement (.li rd imm) := by
  simp [Statement, encode, Instr.opcode, Opcode.format, zeroFields]

theorem lsi (rd : RegIdx) (imm : Imm16) : Statement (.lsi rd imm) := by
  simp [Statement, encode, Instr.opcode, Opcode.format, zeroFields]

theorem mv (rd rs1 : RegIdx) : Statement (.mv rd rs1) := by
  simp [Statement, encode, Instr.opcode, Opcode.format, zeroFields]

end Sys2Proof.Laws.EncodeFields
end

