-- ==== Sys2Proof/Laws/Run.lean ====
section
/-! SUPPORT. Runs: a step takes the host's next move off its list, and a run of one more step is that step and the
rest. -/

namespace Sys2Proof.Machine

/-- With a move to come, the step is that move (R67). -/
theorem step_of_host {s : State} {m : HostMove} {rest : List HostMove} (h : s.host = m :: rest) :
    step s = hostMove m s := by
  simp [step, h]

/-- A move that is made is taken off the list (R67). -/
theorem MoveEffect.host_tail {s t : State} {m : HostMove} (h : MoveEffect s m t) : t.host = s.host.tail := by
  cases h with
  | runs w i u hb hf hd hi he ht => simp [ht.sameHost.1]
  | read | ignored | writeX | writeS | refused | faults | reset => simp

/-- A step takes one move off the list, or finds it empty (R67). -/
theorem step_host_tail {s t : State} (h : step s = .next t) : t.host = s.host.tail := by
  rcases step_effect h with ⟨hh, rfl, -⟩ | ⟨m, rest, -, e⟩
  · simp [hh]
  · exact e.host_tail

/-- A run of one more step is a step and then the rest of the run. -/
theorem run_succ_iff (k : Nat) (s t : State) :
    Host.Core.run Sys2Proof.core (k + 1) s = .next t ↔
      ∃ u, step s = .next u ∧ Host.Core.run Sys2Proof.core k u = .next t := by
  cases h : step s with
  | next u => simp [Host.Core.run, show Sys2Proof.core.step s = .next u from h]
  | fault f => simp [Host.Core.run, show Sys2Proof.core.step s = .fault f from h]
  | refused r => simp [Host.Core.run, show Sys2Proof.core.step s = .refused r from h]

@[simp] theorem State.runReadsWritten_zero (s : State) : s.runReadsWritten 0 = true := rfl

/-- The next step reads written words only, and so does the rest of the run (R32, R242). -/
theorem State.runReadsWritten_succ {s t : State} (k : Nat) (h : step s = .next t) :
    s.runReadsWritten (k + 1) = (s.stepReadsWritten && t.runReadsWritten k) := by
  simp [State.runReadsWritten, h]

end Sys2Proof.Machine
end

