-- ==== Sys2Proof/Tests/Slice0.lean ====
section
/-! SUPPORT. The model's own tests. Every expected value is the spec's: the tables T1 to T15 and the programs of
95_test_vectors.md, the words of 30_encoding.md R92 and the examples of the rules named. -/

namespace Sys2Proof.Tests

set_option Elab.async false

open Sys2Proof.Machine

/-! ## Well-formedness: a selector out of range is refused -/

theorem test_wf_rds : (Instr.rds 0 4).wf = false := by decide +kernel
theorem test_wf_wrs : (Instr.wrs 4 0).wf = false := by decide +kernel
theorem test_wf_rdv : (Instr.rdv 0 8).wf = false := by decide +kernel
theorem test_wf_rdo : (Instr.rdo 0 8).wf = false := by decide +kernel
theorem test_wf_largest : (Instr.rds 0 3).wf && (Instr.wrs 3 0).wf && (Instr.rdv 0 3).wf && (Instr.rdo 0 7).wf := by
  decide +kernel

/-! ## Decoding -/

/-- Table T15: one encoding per command, and the words of R92. -/
def encodings : List (Command × Instr) :=
  [(0x10120000, .fromint 1 2),
   (0x11123000, .add 1 2 3),
   (0x12123000, .sub 1 2 3),
   (0x13123000, .mul 1 2 3),
   (0x14123000, .div 1 2 3),
   (0x20120000, .adv 1 2),
   (0x21120000, .out 1 2),
   (0x22123000, .rotr32 1 2 3),
   (0x23123000, .rotr64 1 2 3),
   (0x30000000, .chain),
   (0x31102000, .rds 1 2),
   (0x32012000, .wrs 2 1),
   (0x33102000, .rdv 1 2),
   (0x34106000, .rdo 1 6),
   (0x4010FFFE, .li 1 0xFFFE),
   (0x4110ABCD, .lsi 1 0xABCD),
   (0x42F00000, .mv 15 0)]

theorem test_decode_t15 : encodings.all (fun r => decode r.1 = .command r.2) := by decide +kernel

theorem test_encode_t15 : encodings.all (fun r => encode r.2 = r.1) := by decide +kernel

/-- Table T14: the words that fault, with their causes. -/
def faultWords : List (Command × DecodeFault) :=
  [(0x00000000, .illegalOpcode),
   (0xFFFFFFFF, .illegalOpcode),
   (0x0F123456, .illegalOpcode),
   (0x15000000, .illegalOpcode),
   (0x24000000, .illegalOpcode),
   (0x35F1F000, .illegalOpcode),
   (0x43000000, .illegalOpcode),
   (0x13433001, .reservedField),
   (0x13433800, .reservedField),
   (0x12541FFF, .reservedField),
   (0x10111000, .reservedField),
   (0x2110F000, .reservedField),
   (0x42EC0001, .reservedField),
   (0x30000001, .reservedField),
   (0x30100000, .reservedField),
   (0x31604000, .selectorRange),
   (0x3160F000, .selectorRange),
   (0x31613000, .reservedField),
   (0x31F1F000, .reservedField),
   (0x32014000, .selectorRange),
   (0x32113000, .reservedField),
   (0x33508000, .selectorRange),
   (0x34808000, .selectorRange),
   (0x40010000, .reservedField),
   (0x41AF5678, .reservedField)]

theorem test_decode_t14_faults : faultWords.all (fun r => decode r.1 = .fault r.2) := by decide +kernel

/-- Table T14: the words that are legal. -/
def legalWords : List (Command × Instr) :=
  [(0x13433000, .mul 4 3 3),
   (0x10110000, .fromint 1 1),
   (0x30000000, .chain),
   (0x31603000, .rds 6 3),
   (0x32013000, .wrs 3 1),
   (0x33503000, .rdv 5 3),
   (0x34807000, .rdo 8 7),
   (0x4000FFFF, .li 0 0xFFFF)]

theorem test_decode_t14_legal : legalWords.all (fun r => decode r.1 = .command r.2) := by decide +kernel

/-! ## Helpers: one command on a small state -/

/-- The reset state with `x1` and `x2` written. -/
def two (a b : Word) : State := (State.reset.writeX 1 a).writeX 2 b

/-- `x[r]` after a command, zero if there is no next state. -/
def after (i : Instr) (s : State) (r : RegIdx) : Word :=
  match exec i s with
  | .next t => t.x[r]
  | .fault _ => 0
  | .refused _ => 0

/-- The state after a step, the reset state if there is none. -/
def stepped (s : State) : State :=
  match step s with
  | .next t => t
  | .fault _ => State.reset
  | .refused _ => State.reset

/-! ## Fixed-point commands -/

/-- Table T1. -/
def fromintTable : List (Word × Word) :=
  [(0x0000000000000000, 0x0000000000000000),
   (0x0000000000000001, 0x0000000100000000),
   (0x0000000000000003, 0x0000000300000000),
   (0x0000000000000800, 0x0000080000000000),
   (0xFFFFFFFFFFFFFFFF, 0xFFFFFFFF00000000),
   (0xFFFFFFFFFFFFFFFD, 0xFFFFFFFD00000000),
   (0x000000007FFFFFFF, 0x7FFFFFFF00000000),
   (0x0000000080000000, 0x8000000000000000),
   (0x00000000FFFFFFFF, 0xFFFFFFFF00000000),
   (0x0000000100000000, 0x0000000000000000),
   (0x123456789ABCDEF0, 0x9ABCDEF000000000),
   (0xFFFFFFFF80000000, 0x8000000000000000),
   (0x8000000000000001, 0x0000000100000000)]

theorem test_fromint_table : fromintTable.all (fun (a, r) => after (.fromint 3 1) (two a 0) 3 = r) := by decide +kernel

/-- Table T2. -/
def addTable : List (Word × Word × Word) :=
  [(0x0000000180000000, 0x0000000240000000, 0x00000003C0000000),
   (0x0000000000000000, 0x0000000000000000, 0x0000000000000000),
   (0x7FFFFFFFFFFFFFFF, 0x0000000000000001, 0x8000000000000000),
   (0xFFFFFFFFFFFFFFFF, 0x0000000000000001, 0x0000000000000000),
   (0x8000000000000000, 0x8000000000000000, 0x0000000000000000),
   (0xFFFFFFFE80000000, 0x0000000080000000, 0xFFFFFFFF00000000),
   (0x8000000000000001, 0x0000000000000000, 0x8000000000000001),
   (0x8000000000000001, 0x0000000000000001, 0x8000000000000002),
   (0x8000000000000001, 0x8000000000000001, 0x0000000000000002),
   (0x123456789ABCDEF0, 0xFEDCBA9876543210, 0x1111111111111100)]

theorem test_add_table : addTable.all (fun (a, b, r) => after (.add 3 1 2) (two a b) 3 = r) := by decide +kernel

/-- Table T3. -/
def subTable : List (Word × Word × Word) :=
  [(0x0000000180000000, 0x0000000240000000, 0xFFFFFFFF40000000),
   (0x0000000000000000, 0x0000000000000001, 0xFFFFFFFFFFFFFFFF),
   (0x8000000000000000, 0x0000000000000001, 0x7FFFFFFFFFFFFFFF),
   (0x0000000000000000, 0x8000000000000000, 0x8000000000000000),
   (0x7FFFFFFFFFFFFFFF, 0xFFFFFFFFFFFFFFFF, 0x8000000000000000),
   (0x0000000A00000000, 0x0000000D00000000, 0xFFFFFFFD00000000),
   (0x123456789ABCDEF0, 0x123456789ABCDEF0, 0x0000000000000000),
   (0x8000000000000001, 0x8000000000000001, 0x0000000000000000),
   (0x0000000000000000, 0x8000000000000001, 0x7FFFFFFFFFFFFFFF)]

theorem test_sub_table : subTable.all (fun (a, b, r) => after (.sub 3 1 2) (two a b) 3 = r) := by decide +kernel

/-- Table T4. -/
def mulTable : List (Word × Word × Word) :=
  [(0x0000000180000000, 0x0000000180000000, 0x0000000240000000),
   (0xFFFFFFFE80000000, 0x0000000180000000, 0xFFFFFFFDC0000000),
   (0xFFFFFFFE80000000, 0xFFFFFFFE80000000, 0x0000000240000000),
   (0x0000000000000000, 0x123456789ABCDEF0, 0x0000000000000000),
   (0x0000000000000001, 0x0000000000000001, 0x0000000000000000),
   (0xFFFFFFFFFFFFFFFF, 0x0000000000000001, 0xFFFFFFFFFFFFFFFF),
   (0xFFFFFFFFFFFFFFFF, 0xFFFFFFFFFFFFFFFF, 0x0000000000000000),
   (0x00000000FFFFFFFF, 0x00000000FFFFFFFF, 0x00000000FFFFFFFE),
   (0x0000000100000000, 0x123456789ABCDEF0, 0x123456789ABCDEF0),
   (0xFFFFFFFF00000000, 0x123456789ABCDEF0, 0xEDCBA98765432110),
   (0x0000000080000000, 0x0000000300000001, 0x0000000180000000),
   (0x0000000080000000, 0xFFFFFFFCFFFFFFFF, 0xFFFFFFFE7FFFFFFF),
   (0x0001000000000000, 0x0001000000000000, 0x0000000000000000),
   (0x0000B50500000000, 0x0000B50500000000, 0x8000121900000000),
   (0x7FFFFFFFFFFFFFFF, 0x7FFFFFFFFFFFFFFF, 0xFFFFFFFF00000000),
   (0x8000000000000000, 0x8000000000000000, 0x0000000000000000),
   (0x8000000000000000, 0x0000000100000000, 0x8000000000000000),
   (0x8000000000000000, 0xFFFFFFFF00000000, 0x8000000000000000),
   (0x8000000000000001, 0x0000000100000000, 0x8000000000000001),
   (0x8000000000000001, 0x0000000200000000, 0x0000000000000002),
   (0xFFFFFFFD00000000, 0xFFFFFFFD00000000, 0x0000000900000000),
   (0x0000000500000000, 0x0000000500000000, 0x0000001900000000),
   (0x0000000512345678, 0x0000000000010000, 0x0000000000051234)]

theorem test_mul_table : mulTable.all (fun (a, b, r) => after (.mul 3 1 2) (two a b) 3 = r) := by decide +kernel

/-- Table T5; the last column is the reading the spec rejects. -/
def divTable : List (Word × Word × Word × Word) :=
  [(0x0000000300000000, 0x0000000200000000, 0x0000000180000000, 0x0000000000000000),
   (0x0000000100000000, 0x0000000300000000, 0x0000000055555555, 0x0000000000000000),
   (0xFFFFFFFF00000000, 0x0000000300000000, 0xFFFFFFFFAAAAAAAB, 0x0000000000000000),
   (0x0000000100000000, 0xFFFFFFFD00000000, 0xFFFFFFFFAAAAAAAB, 0x0000000000000000),
   (0xFFFFFFFF00000000, 0xFFFFFFFD00000000, 0x0000000055555555, 0x0000000000000000),
   (0xFFFFFFF900000000, 0x0000000200000000, 0xFFFFFFFC80000000, 0x0000000000000000),
   (0x0000000000000000, 0x0000000200000000, 0x0000000000000000, 0x0000000000000000),
   (0x0000000000000000, 0x0000000000000000, 0x8000000000000001, 0x8000000000000001),
   (0x0000000500000000, 0x0000000000000000, 0x8000000000000001, 0x8000000000000001),
   (0x8000000000000001, 0x0000000000000000, 0x8000000000000001, 0x8000000000000001),
   (0xFFFFFFFFFFFFFFFF, 0x0000000000000000, 0x8000000000000001, 0x8000000000000001),
   (0x0000000000000001, 0x0000000200000000, 0x0000000000000000, 0x0000000000000000),
   (0xFFFFFFFFFFFFFFFF, 0x0000000200000000, 0x0000000000000000, 0x0000000000000000),
   (0x0000000000000001, 0x0000000000000001, 0x0000000100000000, 0x0000000100000000),
   (0x000000007FFFFFFF, 0x0000000000000001, 0x7FFFFFFF00000000, 0x7FFFFFFF00000000),
   (0x0000000100000000, 0x0000000000000001, 0x0000000000000000, 0x0000000000000000),
   (0x0000000080000000, 0x0000000000000001, 0x8000000000000000, 0x8000000000000000),
   (0x0000000100000000, 0x0000000000008000, 0x0002000000000000, 0x0000000000000000),
   (0x7FFFFFFFFFFFFFFF, 0x0000000100000000, 0x7FFFFFFFFFFFFFFF, 0xFFFFFFFFFFFFFFFF),
   (0x8000000000000000, 0x0000000100000000, 0x8000000000000000, 0x0000000000000000),
   (0x8000000000000000, 0xFFFFFFFF00000000, 0x8000000000000000, 0x0000000000000000),
   (0x8000000000000000, 0xFFFFFFFFFFFFFFFF, 0x0000000000000000, 0x0000000000000000),
   (0x8000000000000000, 0x0000000200000000, 0xC000000000000000, 0x0000000000000000),
   (0x8000000000000001, 0x0000000100000000, 0x8000000000000001, 0x0000000000000001),
   (0x4000000000000000, 0x0000000100000000, 0x4000000000000000, 0x0000000000000000),
   (0x0000000000000001, 0x8000000000000000, 0x0000000000000000, 0x0000000000000000),
   (0x0000080000000000, 0x0000000200000000, 0x0000040000000000, 0x0000000000000000),
   (0x0000000240000000, 0x0000000180000000, 0x0000000180000000, 0x000000002AAAAAAA),
   (0x0000000512345678, 0x0000000000010000, 0x0005123456780000, 0x0000123456780000),
   (0x0000000000051234, 0x0000000000010000, 0x0000000512340000, 0x0000000512340000),
   (0x0000000000000000, 0x0001000000000000, 0x0000000000000000, 0x0000000000000000)]

theorem test_div_table : divTable.all (fun (a, b, r, _) => after (.div 3 1 2) (two a b) 3 = r) := by decide +kernel

theorem test_div_narrow_reading : divTable.all (fun (a, b, _, r) => fxDiv false a b = r) := by decide +kernel

/-- Program P2, step 14: the destination is both sources. -/
theorem test_mul_square : after (.mul 1 1 1) (two 0xFFFFFFFD00000000 0) 1 = 0x0000000900000000 := by decide +kernel

/-! ## Bit mixer -/

/-- Table T6: one and two advances. -/
def advTable : List (Word × Word × Word) :=
  [(0x0000000000000000, 0x14057B7EF767814F, 0x1A08EE1184BA6D32),
   (0x0000000000000001, 0x6C576FAC43FD007C, 0x826886B3864A1B1B),
   (0x0000000000000002, 0xC4A963D990927FA9, 0xEAC81F5587D9C904),
   (0x0000000000000003, 0x1CFB5806DD27FED6, 0x5327B7F7896976ED),
   (0xFFFFFFFFFFFFFFFF, 0xBBB38751AAD20222, 0xB1A9556F832ABF49),
   (0x8000000000000000, 0x94057B7EF767814F, 0x9A08EE1184BA6D32),
   (0x123456789ABCDEF0, 0xA1E095C2DEE3C17F, 0x1B07E2A7755985A2),
   (0x0123456789ABCDEF, 0x2CE32D2335DF4552, 0xCA18DD5AE3C45EB9),
   (0xFEDCBA9876543210, 0xA2D5D5AD6C5A3E1F, 0x019966262420CDC2),
   (0x0F1E2D3C4B5A6978, 0xF99DF58113769367, 0x036948B89552836A),
   (0x8000000000000001, 0xEC576FAC43FD007C, 0x026886B3864A1B1B),
   (0x14057B7EF767814F, 0x1A08EE1184BA6D32, 0x9AF678222E728119),
   (0x5851F42D4C957F2D, 0x7C651420F8F72F38, 0x250D578876DF9627)]

theorem test_adv_table : advTable.all (fun (s, a, b) => after (.adv 3 1) (two s 0) 3 = a && adv a = b) := by decide +kernel

/-- Table T7; the last column is the left-rotating reading the spec rejects. -/
def outTable : List (Word × Word × Half) :=
  [(0x0000000000000000, 0x0000000000000000, 0x00000000),
   (0x0000000000000001, 0x0000000000000000, 0x00000000),
   (0x0000000008000000, 0x0000000000000001, 0x00000001),
   (0x14057B7EF767814F, 0x00000000602BF3FD, 0x02BF3FD6),
   (0x1A08EE1184BA6D32, 0x00000000E823A24E, 0x08E893BA),
   (0x6C576FAC43FD007C, 0x00000000B99C5774, 0xD2E6715D),
   (0x826886B3864A1B1B, 0x00000000C5344D14, 0xC5344D14),
   (0xC4A963D990927FA9, 0x000000002A5E7995, 0x79952A5E),
   (0xEAC81F5587D9C904, 0x00000000C825E782, 0x0B20979E),
   (0xFFFFFFFFFFFFFFFF, 0x00000000FFF00001, 0x7FFC0000),
   (0x8000000000000000, 0x0000000000000004, 0x00000004),
   (0x0800000000000000, 0x0000000000002000, 0x00008000),
   (0xF800000000000000, 0x00000000000F8000, 0x0003E000),
   (0x123456789ABCDEF0, 0x0000000051A297AC, 0x1A297AC5),
   (0xBBB38751AAD20222, 0x00000000EA6F52EC, 0xD4BB3A9B),
   (0xB1A9556F832ABF49, 0x00000000BC82E8D4, 0x2E8D4BC8)]

theorem test_out_table : outTable.all (fun (s, r, _) => after (.out 3 1) (two s 0) 3 = r) := by decide +kernel

theorem test_out_left_reading : outTable.all (fun (s, _, r) => mixOut .left s = r) := by decide +kernel

/-- Table T11. -/
def rotr32Table : List (Word × Word × Word) :=
  [(0x0000000000000001, 0x0000000000000001, 0x0000000080000000),
   (0x0000000000000001, 0x0000000000000000, 0x0000000000000001),
   (0x0000000000000001, 0x0000000000000020, 0x0000000000000001),
   (0x0000000000000001, 0x0000000000000021, 0x0000000080000000),
   (0x0000000080000000, 0x000000000000001F, 0x0000000000000001),
   (0x0000000012345678, 0x0000000000000004, 0x0000000081234567),
   (0x0000000012345678, 0x0000000000000008, 0x0000000078123456),
   (0x0000000012345678, 0x0000000000000010, 0x0000000056781234),
   (0x0000000012345678, 0x000000000000001C, 0x0000000023456781),
   (0xFFFFFFFF12345678, 0x0000000000000004, 0x0000000081234567),
   (0x0000000012345678, 0xFFFFFFFFFFFFFFE4, 0x0000000081234567),
   (0x0000000080000001, 0x0000000000000001, 0x00000000C0000000),
   (0x00000000FFFFFFFF, 0x000000000000000D, 0x00000000FFFFFFFF),
   (0x0000000000000000, 0x0000000000000007, 0x0000000000000000),
   (0x123456789ABCDEF0, 0x0000000000000018, 0x00000000BCDEF09A)]

theorem test_rotr32_table : rotr32Table.all (fun (a, n, r) => after (.rotr32 3 1 2) (two a n) 3 = r) := by decide +kernel

/-- Table T12. -/
def rotr64Table : List (Word × Word × Word) :=
  [(0x0000000000000001, 0x0000000000000001, 0x8000000000000000),
   (0x0000000000000001, 0x0000000000000000, 0x0000000000000001),
   (0x0000000000000001, 0x0000000000000040, 0x0000000000000001),
   (0x0000000000000001, 0x0000000000000041, 0x8000000000000000),
   (0x8000000000000000, 0x000000000000003F, 0x0000000000000001),
   (0x123456789ABCDEF0, 0x0000000000000004, 0x0123456789ABCDEF),
   (0x123456789ABCDEF0, 0x0000000000000018, 0xBCDEF0123456789A),
   (0x123456789ABCDEF0, 0x0000000000000030, 0x56789ABCDEF01234),
   (0x123456789ABCDEF0, 0x0000000000000020, 0x9ABCDEF012345678),
   (0x123456789ABCDEF0, 0xFFFFFFFFFFFFFFC4, 0x0123456789ABCDEF),
   (0xFFFFFFFFFFFFFFFF, 0x0000000000000011, 0xFFFFFFFFFFFFFFFF),
   (0x8000000000000001, 0x0000000000000001, 0xC000000000000000)]

theorem test_rotr64_table : rotr64Table.all (fun (a, n, r) => after (.rotr64 3 1 2) (two a n) 3 = r) := by decide +kernel
/-! ## Immediates and moves (table T13) -/

theorem test_li_sign : after (.li 0 0x8000) State.reset 0 = 0xFFFFFFFFFFFF8000 ∧
    after (.li 0 0xFFFF) State.reset 0 = 0xFFFFFFFFFFFFFFFF := by decide +kernel

theorem test_li_positive : after (.li 1 3) State.reset 1 = 3 ∧ after (.li 0 0x7FFF) State.reset 0 = 0x7FFF := by decide +kernel

theorem test_lsi_insert : after (.lsi 1 0xBEEF) (two 0x123456789ABCDEF0 0) 1 = 0x56789ABCDEF0BEEF := by decide +kernel

theorem test_lsi_no_sign : after (.lsi 1 0xFFFF) (two 0 0) 1 = 0xFFFF ∧
    after (.lsi 1 0) (two 0xFFFFFFFFFFFFFFFF 0) 1 = 0xFFFFFFFFFFFF0000 := by decide +kernel

theorem test_mv_copy : after (.mv 14 1) (two 0xBCDEF0123456789A 0) 14 = 0xBCDEF0123456789A := by decide +kernel

/-! ## Hash chain (tables T8, T9, T10) -/

/-- A byte string written as one number, byte 0 most significant. -/
def bytes32 (n : Nat) : Vector Byte 32 := Vector.ofFn fun j => BitVec.ofNat 8 (n >>> (8 * (31 - j.val)))

/-- The reset state with a seed. -/
def seeded (S : Vector Word 4) : State :=
  (((State.reset.writeS 0 S[0]).writeS 1 S[1]).writeS 2 S[2]).writeS 3 S[3]

/-- The state after `CHAIN` on a seed. -/
def drawn (S : Vector Word 4) : State := stepped ((seeded S).pushMove (.issue 0x30000000))

theorem test_keccak_zeros : Keccak.keccak256 (bytes32 0) =
    bytes32 0x290decd9548b62a8d60345a988386fc84ba6bc95484008f6362f93160ef3e563 := by decide +kernel

/-- Vector A: outputs, message, next seed. -/
theorem test_chain_vector_a : (drawn #v[1, 0, 0, 0]).O =
      #v[0xB99C5774, 0xC5344D14, 0x602BF3FD, 0xE823A24E, 0x602BF3FD, 0xE823A24E, 0x602BF3FD, 0xE823A24E] ∧
    message (drawn #v[1, 0, 0, 0]).O =
      bytes32 0x74579cb9144d34c5fdf32b604ea223e8fdf32b604ea223e8fdf32b604ea223e8 ∧
    (drawn #v[1, 0, 0, 0]).S =
      #v[0x1A08EE1184BA6D32, 0x1A08EE1184BA6D32, 0x1A08EE1184BA6D32, 0x826886B3864A1B1B] := by decide +kernel

/-- Vector A: the random value with `H` = Keccak-256. -/
theorem test_chain_vector_a_random : (drawn #v[1, 0, 0, 0]).V =
    #v[0xF7ED864724DBB90D, 0x91D8F9CB8400E832, 0x39CAC5CDCD019EAB, 0x53187BF2F6FE94BE] := by decide +kernel

/-- Vector C: four different lanes. -/
theorem test_chain_vector_c :
    (drawn #v[0x0123456789ABCDEF, 0xFEDCBA9876543210, 0x0F1E2D3C4B5A6978, 0x8000000000000001]).S =
      #v[0x036948B89552836A, 0x026886B3864A1B1B, 0x019966262420CDC2, 0xCA18DD5AE3C45EB9] ∧
    (drawn #v[0x0123456789ABCDEF, 0xFEDCBA9876543210, 0x0F1E2D3C4B5A6978, 0x8000000000000001]).O =
      #v[0xFCE3261B, 0x8EFDCD21, 0xFA3035AB, 0x332CC80F, 0x6772F99A, 0x6D290C58, 0x5754B99C, 0x4D10C534] := by
  decide +kernel

/-- The readings of `OUT_FROM` and `ROT_DIR` that the spec sets aside, on vector A's seed. -/
theorem test_chain_other_readings :
    drawOutputs .right .published #v[1, 0, 0, 0] =
      #v[0x00000000, 0xB99C5774, 0x00000000, 0x602BF3FD, 0x00000000, 0x602BF3FD, 0x00000000, 0x602BF3FD] ∧
    drawOutputs .left .advanced #v[1, 0, 0, 0] =
      #v[0xD2E6715D, 0xC5344D14, 0x02BF3FD6, 0x08E893BA, 0x02BF3FD6, 0x08E893BA, 0x02BF3FD6, 0x08E893BA] := by
  decide +kernel

/-- Table T10's words on a state with the `S`, `O` and `V` of vector A. -/
def vectorA : State :=
  { State.reset with
    S := #v[0x1A08EE1184BA6D32, 0x1A08EE1184BA6D32, 0x1A08EE1184BA6D32, 0x826886B3864A1B1B]
    O := #v[0xB99C5774, 0xC5344D14, 0x602BF3FD, 0xE823A24E, 0x602BF3FD, 0xE823A24E, 0x602BF3FD, 0xE823A24E]
    V := #v[0xF7ED864724DBB90D, 0x91D8F9CB8400E832, 0x39CAC5CDCD019EAB, 0x53187BF2F6FE94BE] }

theorem test_rds_word3 : (stepped (vectorA.withFetchWord 32 0x31103000)).x[1] = 0x826886B3864A1B1B := by decide +kernel

theorem test_rdv_words : (stepped (vectorA.withFetchWord 32 0x33100000)).x[1] = 0xF7ED864724DBB90D ∧
    (stepped (vectorA.withFetchWord 32 0x33102000)).x[1] = 0x39CAC5CDCD019EAB := by decide +kernel

theorem test_rdo_outputs : (stepped (vectorA.withFetchWord 32 0x34101000)).x[1] = 0x00000000C5344D14 ∧
    (stepped (vectorA.withFetchWord 32 0x34107000)).x[1] = 0x00000000E823A24E := by decide +kernel

theorem test_wrs_word2 :
    (stepped ((vectorA.writeX 2 0xDEADBEEF00000001).withFetchWord 32 0x32022000)).S =
      #v[0x1A08EE1184BA6D32, 0x1A08EE1184BA6D32, 0xDEADBEEF00000001, 0x826886B3864A1B1B] := by decide +kernel

/-! ## Faults, ports, reset (program P5; R54 to R57, R203 to R205, R230, K8) -/

/-- Program P5 at its faulting word. -/
def p5 : State :=
  { two 7 0 with ci := 1, host := [.issue 0x31204000, .issue 0x40100009, .write .X 1 9, .reset] }

theorem test_fault_entry : (stepped p5).status = 0x00000031 ∧ (stepped p5).fcmd = 0x31204000 ∧
    (stepped p5).faultPin = true ∧ (stepped p5).x = p5.x ∧ (stepped p5).ci = 1 := by decide +kernel

theorem test_faulted_refuses : stepped (stepped p5) = (stepped p5).moveMade ∧
    stepped (stepped (stepped p5)) = (stepped p5).moveMade.moveMade := by decide +kernel

theorem test_reset_leaves_fault :
    (stepped (stepped (stepped (stepped p5)))).status = 0 ∧
    (stepped (stepped (stepped (stepped p5)))).written = Written.none := by decide +kernel

theorem test_command_index : (stepped (State.reset.withFetchWord 32 0x40100003)).ci = 1 := by decide +kernel

theorem test_host_read :
    (stepped (vectorA.pushMove (.read .O 0))).received = [.narrow 0xB99C5774] ∧
    (stepped ((stepped p5).pushMove (.read .CSR 1))).received = [.narrow 0x31204000] := by decide +kernel

theorem test_host_write : (stepped (State.reset.pushMove (.write .S 3 5))).S[3] = 5 ∧
    (stepped (State.reset.pushMove (.write .S 3 5))).written.S = #v[false, false, false, true] := by decide +kernel

/-- The outcome is this refusal. -/
def refusedWith (o : Host.Outcome State Fault Refusal) (r : Refusal) : Bool :=
  match o with
  | .next _ => false
  | .fault _ => false
  | .refused q => q == r

theorem test_host_moves_refused :
    refusedWith (step (State.reset.pushMove (.write .V 0 5))) .noSuchHostMove ∧
    refusedWith (step (State.reset.pushMove (.read .X 16))) .noSuchHostMove ∧
    refusedWith (step (State.reset.awaitDigest.pushMove (.read .X 0))) .hostAccessWhileBusy := by decide +kernel

/-- The outcome is the unit standing still inside `CHAIN`. -/
def stuck (o : Host.Outcome State Fault Refusal) : Bool :=
  match o with
  | .next _ => false
  | .fault f => f == .hashEngineSilent
  | .refused _ => false

/-- The unit inside a `CHAIN` whose digest does not come. -/
def waiting : State := stepped ({ seeded #v[1, 0, 0, 0] with engine := .silent }.pushMove (.issue 0x30000000))

theorem test_silent_engine : waiting.busy = true ∧ waiting.S = #v[1, 0, 0, 0] ∧ waiting.ci = 0 ∧
    stuck (step waiting) ∧ stuck (step (waiting.pushMove (.issue 0x40100003))) ∧
    (stepped (waiting.pushMove .reset)).busy = false := by decide +kernel

/-! ## Assembler (R92, R93) -/

/-- Table T15 and R92's examples as lines, with their words. -/
def asmLines : List (String × List Command) :=
  [("FROMINT x1, x2", [0x10120000]), ("ADD x1, x2, x3", [0x11123000]), ("SUB x1, x2, x3", [0x12123000]),
   ("MUL x4, x3, x3", [0x13433000]), ("DIV x1, x2, x3", [0x14123000]), ("ADV x1, x2", [0x20120000]),
   ("OUT x1, x2", [0x21120000]), ("ROTR32 x1, x2, x3", [0x22123000]), ("ROTR64 x1, x2, x3", [0x23123000]),
   ("CHAIN", [0x30000000]), ("RDS x1, s2", [0x31102000]), ("WRS s3, x1 # the seed", [0x32013000]),
   ("RDV x2, v0", [0x33200000]), ("RDO x1, o6", [0x34106000]), ("LI x0, -1", [0x4000FFFF]),
   ("LSI x1, 0xABCD", [0x4110ABCD]), ("MV x15, x0", [0x42F00000]), ("# nothing", []),
   ("LI64 x5, 0x8000000000000001", [0x40508000, 0x41500000, 0x41500000, 0x41500001])]

theorem test_assemble_lines : asmLines.all (fun r => Asm.assemble [r.1.toList] = some r.2) := by decide +kernel

/-- Lines the assembler rejects (R92). -/
def asmRejected : List String :=
  ["RDS x1, v0", "RDS x1, s4", "RDO x1, o8", "LI x0, 32768", "LSI x0, -1", "ADD x1, x2", "ADD x1, x2, x16",
   "add x1, x2, x3"]

theorem test_assemble_rejects : asmRejected.all (fun t => Asm.line t.toList = none) := by decide +kernel

/-! ## Witnesses: the hypotheses of each statement are met together, at the ends of their ranges -/

theorem witness_DecodeOfEncode : (Instr.rds 15 3).wf ∧ (Instr.wrs 3 15).wf ∧ (Instr.rdv 0 3).wf ∧
    (Instr.rdo 15 7).wf ∧ (Instr.mul 0 15 0).wf := by decide +kernel

theorem witness_EncodeOfDecode : decode 0x34F07000 = .command (.rdo 15 7) := by decide +kernel

theorem witness_FaultKindsByCommand : decode 0x31004000 = .fault .selectorRange ∧
    decode 0x32004000 = .fault .selectorRange ∧ decode 0x3300F000 = .fault .selectorRange ∧
    decode 0x34008000 = .fault .selectorRange := by decide +kernel

theorem witness_DivTruncatesWideQuotient : (two 7 0).x[2] = 0 ∧ (two 7 1).x[2] ≠ 0 := by decide +kernel

/-- Products and quotients at both ends of the range: `-2^31 * 1.0` and the largest value times `1.0`. -/
theorem witness_MulFloorsDivTruncates :
    fxValue 0x8000000000000000 * fxValue 0x0000000100000000 = -(2 ^ 31) ∧
    fxValue 0x7FFFFFFFFFFFFFFF * fxValue 0x0000000100000000 < 2 ^ 31 ∧
    fxValue 0x8000000000000000 / fxValue 0x0000000100000000 = -(2 ^ 31) ∧
    fxValue 0x7FFFFFFFFFFFFFFF / fxValue 0x0000000100000000 < 2 ^ 31 := by decide +kernel

theorem witness_DivOfMulWithinOneUlp :
    2 ^ 32 ≤ |(0x0000000100000000 : Word).toInt| ∧ 2 ^ 32 ≤ |(0xFFFFFFFF00000000 : Word).toInt| ∧
    ((0x8000000000000000 : Word).toInt * (0x0000000100000000 : Word).toInt).fdiv (2 ^ 32) = -(2 ^ 63) ∧
    ((0x8000000000000001 : Word).toInt * (0xFFFFFFFF00000000 : Word).toInt).fdiv (2 ^ 32) = 2 ^ 63 - 1 := by
  decide +kernel

/-- A state whose engine is the open function. -/
def otherEngine : State := { seeded #v[1, 0, 0, 2] with engine := .other }

theorem witness_ChainDrawsOnce : State.reset.engine ≠ .silent ∧ otherEngine.engine ≠ .silent := by decide +kernel

/-- The idle unit with a silent engine, about to draw, and then these moves. -/
def silentDraw (rest : List HostMove) : State :=
  { seeded #v[1, 0, 0, 0] with engine := .silent, host := .issue 0x30000000 :: rest }

theorem witness_ChainWithoutDigestHangs :
    (∀ rest, (silentDraw rest).engine = .silent ∧ (silentDraw rest).busy = false ∧ (silentDraw rest).faulted = false ∧
      (silentDraw rest).host = .issue 0x30000000 :: rest) ∧
    (stepped (stepped (silentDraw [.reset]))).idle = true := by
  refine ⟨fun rest => ⟨rfl, rfl, (by decide +kernel : (silentDraw []).faulted = false), rfl⟩, by decide +kernel⟩

/-- A draw has a next state. -/
theorem draw_has_next (s : State) : ∃ t, exec .chain s = .next t := (exec_effect .chain s rfl).imp fun _ h => h.1

/-- Two draws with the same seed, and a third with another seed, all with a next state. -/
theorem witness_SeedMapIsBijective : (seeded #v[1, 0, 0, 2]).S = otherEngine.S ∧
    (seeded #v[1, 0, 0, 3]).S ≠ otherEngine.S ∧ (∃ t, exec .chain (seeded #v[1, 0, 0, 2]) = .next t) ∧
    (∃ t, exec .chain (seeded #v[1, 0, 0, 3]) = .next t) ∧ ∃ t, exec .chain otherEngine = .next t :=
  ⟨by decide +kernel, by decide +kernel, draw_has_next _, draw_has_next _, draw_has_next _⟩

theorem witness_LanesAreIndependent : (seeded #v[1, 7, 0, 3]).S[0] = otherEngine.S[0] ∧
    (seeded #v[5, 6, 7, 2]).S[3] = otherEngine.S[3] ∧ (∃ t, exec .chain (seeded #v[1, 7, 0, 3]) = .next t) ∧
    (∃ t, exec .chain (seeded #v[5, 6, 7, 2]) = .next t) ∧ ∃ t, exec .chain otherEngine = .next t :=
  ⟨by decide +kernel, by decide +kernel, draw_has_next _, draw_has_next _, draw_has_next _⟩

/-- The selectors at the ends of their ranges, for `RDS`, `WRS`, `RDV` and for `RDO`. -/
theorem witness_selector_ranges : (3 : Sel).val ≤ 3 ∧ 3 < (4 : Sel).val ∧ 3 < (15 : Sel).val ∧ (7 : Sel).val ≤ 7 ∧
    7 < (8 : Sel).val ∧ 7 < (15 : Sel).val := by decide

theorem witness_SeedWritesCommute : (0 : Sel).val ≤ 3 ∧ (3 : Sel).val ≤ 3 ∧ (0 : Sel) ≠ 3 := by decide

/-- A nonzero must-be-zero field, of four and of sixteen bits. -/
theorem witness_nonzero_fields : (1 : BitVec 4) ≠ 0 ∧ (0xF : BitVec 4) ≠ 0 ∧ (1 : BitVec 16) ≠ 0 := by decide

theorem witness_AssembledWordsAreLegal :
    Asm.assemble ["LI x1, 3".toList, "FLI x2, -32768".toList, "RDO x15, o7 # end".toList] =
      some [0x40100003, 0x40208000, 0x10220000, 0x34F07000] := by decide +kernel

theorem witness_FaultEntryRecordsWord : p5.host = .issue 0x31204000 :: p5.host.tail ∧ p5.busy = false ∧
    p5.faulted = false ∧ decode 0x31204000 = .fault .selectorRange ∧ decode 0x35F1F000 = .fault .illegalOpcode ∧
    decode 0x31F1F000 = .fault .reservedField := by decide +kernel

/-- The unit of program P5 after its fault, with these moves to come. -/
def faultedUnit (moves : List HostMove) : State := { stepped p5 with host := moves }

theorem witness_FaultedUnitRefuses :
    (∀ moves, (faultedUnit moves).busy = false ∧ (faultedUnit moves).faulted = true) ∧
    (faultedUnit []).element .CSR 1 = some (.narrow 0x31204000) ∧
    (faultedUnit []).element .X 15 = some (.wide 0) ∧
    (stepped (faultedUnit [.reset])).faulted = false := by
  refine ⟨fun moves => ⟨rfl, (by decide +kernel : (stepped p5).faulted = true)⟩, ?_, ?_, ?_⟩ <;> decide +kernel

theorem witness_FirstFaultStaysOnRecord :
    (faultedUnit [.issue 0x40100009, .write .X 0 1, .reset]).faulted = true ∧
    HostMove.reset ∉ (faultedUnit [.issue 0x40100009, .write .X 0 1, .reset]).host.take 2 ∧
    ∃ t, Host.Core.run Sys2Proof.core 2 (faultedUnit [.issue 0x40100009, .write .X 0 1, .reset]) = .next t :=
  ⟨by decide +kernel, by decide +kernel, ⟨_, rfl⟩⟩

/-- `LI` completes; `CHAIN` with a silent engine is the one that waits. -/
theorem witness_StepRunsDecodedCommand : decode 0x40100003 = .command (.li 1 3) ∧
    decode 0x30000000 = .command .chain ∧ (stepped (State.reset.withFetchWord 32 0x40100003)).busy = false ∧
    (stepped (silentDraw [])).busy = true := by decide +kernel

theorem witness_CommandIndexCountsCommands :
    (faultedUnit [.issue 0x40100009]).faulted = true ∧ (faultedUnit [.issue 0x40100009]).busy = false ∧
    (p5.faulted = false ∧ p5.busy = false ∧ decode 0x31204000 = .fault .selectorRange) ∧
    decode 0x30000000 = .command .chain ∧ p5.engine ≠ .silent := by decide +kernel

/-- One legal program that reads written words only, and one that reads the unwritten `O[7]`. -/
theorem witness_LegalProgramReachesGoodEnd : [Instr.li 1 3, .fromint 2 1].all Instr.wf ∧
    [Instr.li 1 3, .rdo 2 7].all Instr.wf ∧ State.reset.busy = false ∧ State.reset.faulted = false ∧
    State.reset.engine ≠ .silent ∧
    (State.reset.withProgram [0x40100003, 0x10210000] [.issue 0x40300001]).runReadsWritten 2 = true ∧
    (State.reset.withProgram [0x40100003, 0x34207000] []).runReadsWritten 2 = false := by decide +kernel

theorem witness_LegalCommandsNeverFault : (Instr.rdo 15 7).wf ∧ Instr.chain.wf ∧ (silentDraw []).engine = .silent ∧
    State.reset.engine ≠ .silent := by decide +kernel

/-- The good end of R242 with a host that goes on: after two steps `ci` is 2, the unit idle and unfaulted, and the
host's next move still to come. -/
theorem test_good_end_with_more_moves :
    (stepped (stepped (State.reset.withProgram [0x40100003, 0x10210000] [.issue 0x40300001]))).goodEnd
      [0x40100003, 0x10210000] = true := by decide +kernel

/-- A program whose second word faults, started idle, faulted or busy, and followed by more moves of the host. -/
theorem witness_FaultingProgramHasNoGoodEnd : decode 0 = .fault .illegalOpcode ∧
    HostMove.reset ∉ (State.reset.withProgram [0x40100003, 0] [.issue 0x40100003, .reset]).host.take 3 ∧
    (∃ t, Host.Core.run Sys2Proof.core 3 (State.reset.withProgram [0x40100003, 0] [.issue 0x40100003, .reset]) =
      .next t) ∧
    (∃ t, Host.Core.run Sys2Proof.core 2 ((faultedUnit []).withProgram [0x40100003, 0] []) = .next t) ∧
    ∃ t, Host.Core.run Sys2Proof.core 0 (waiting.withProgram [0] []) = .next t :=
  ⟨by decide +kernel, by decide +kernel, ⟨_, rfl⟩, ⟨_, rfl⟩, ⟨_, rfl⟩⟩

/-- The last index of each space, and the one after it. -/
theorem witness_HostReadHasNoSideEffect : vectorA.element .O 7 = some (.narrow 0xE823A24E) ∧
    vectorA.element .S 3 = some (.wide 0x826886B3864A1B1B) ∧ vectorA.element .V 3 = some (.wide 0x53187BF2F6FE94BE) ∧
    (vectorA.writeX 15 6).element .X 15 = some (.wide 6) ∧
    (faultedUnit []).element .CSR 0 = some (.narrow 0x00000031) ∧
    (faultedUnit []).element .CSR 1 = some (.narrow 0x31204000) ∧ vectorA.busy = false ∧
    [(Space.X, 16), (.S, 4), (.V, 4), (.O, 8), (.CSR, 2)].all
      (fun r => refusedWith (step (vectorA.pushMove (.read r.1 r.2))) .noSuchHostMove) := by decide +kernel

theorem witness_HostWriteStoresWord : State.reset.busy = false ∧ State.reset.faulted = false ∧
    (stepped (State.reset.pushMove (.write .X 15 9))).x[15] = 9 ∧
    (stepped (State.reset.pushMove (.write .S 0 9))).S[0] = 9 := by decide +kernel

theorem witness_HostWriteOutsideTableRefused :
    refusedWith (step (State.reset.pushMove (.write .O 0 5))) .noSuchHostMove ∧
    refusedWith (step (State.reset.pushMove (.write .CSR 0 5))) .noSuchHostMove ∧
    refusedWith (step (State.reset.pushMove (.write .X 16 5))) .noSuchHostMove ∧
    refusedWith (step (State.reset.pushMove (.write .S 4 5))) .noSuchHostMove := by decide +kernel

theorem witness_HostAccessWhileBusyRefused : waiting.busy = true ∧
    refusedWith (step (waiting.pushMove (.write .S 0 5))) .hostAccessWhileBusy := by decide +kernel

theorem witness_ResetClearsUnit : (faultedUnit [.reset]).host = [.reset] ∧
    (waiting.pushMove .reset).host = [.reset] ∧ waiting.busy = true := by decide +kernel

theorem witness_Legal : State.reset.Legal ∧ (faultedUnit []).Legal ∧ waiting.Legal where
  left := ⟨fun _ => by decide +kernel, fun h => absurd h (by decide +kernel),
    ⟨false, by decide +kernel, by decide +kernel, by decide⟩, fun h => absurd h (by decide +kernel)⟩
  right := ⟨⟨fun h => absurd h (by decide +kernel), fun _ => ⟨.selectorRange, by decide +kernel, by decide +kernel⟩,
      ⟨false, by decide +kernel, by decide +kernel, by decide⟩, fun h => absurd h (by decide +kernel)⟩,
    ⟨fun _ => by decide +kernel, fun h => absurd h (by decide +kernel),
      ⟨false, by decide +kernel, by decide +kernel, by decide⟩, fun _ => by decide +kernel⟩⟩

theorem witness_IdleUnitKeepsState : State.reset.host = [] ∧ State.reset.busy = false := by decide +kernel

/-- One step of each kind that writes something. -/
theorem witness_WritersOfEachRegister : (stepped ((seeded #v[1, 0, 0, 0]).pushMove (.issue 0x30000000))).S ≠
      (seeded #v[1, 0, 0, 0]).S ∧ (stepped p5).fcmd ≠ p5.fcmd ∧
    (stepped ((two 7 0).withFetchWord 32 0x32011000)).S ≠ (two 7 0).S ∧
    (stepped ((two 7 0).withFetchWord 32 0x42510000)).x ≠ (two 7 0).x := by decide +kernel

/-- Two states that differ in the unwritten `x3`, and a command that reads only the written `x1` and `x2`. -/
theorem witness_UnwrittenWordsNeverMatter :
    AgreeOnWritten ((two 7 5).withFetchWord 32 0x11412000)
      { (two 7 5).withFetchWord 32 0x11412000 with x := (two 7 5).x.set 3 9 } ∧
    ((two 7 5).withFetchWord 32 0x11412000).stepReadsWritten = true ∧
    ∃ t, step ((two 7 5).withFetchWord 32 0x11412000) = .next t :=
  ⟨⟨rfl, by decide +kernel, by decide +kernel, by decide +kernel, by decide +kernel, ⟨rfl, rfl⟩,
    ⟨rfl, rfl, rfl, rfl, rfl⟩⟩, by decide +kernel, ⟨_, rfl⟩⟩

/-- The same two states over the whole run of a program. -/
theorem witness_WrittenRunsNeverDependOnReset :
    AgreeOnWritten ((two 7 5).withProgram [0x11412000, 0x42540000] [])
      { (two 7 5).withProgram [0x11412000, 0x42540000] [] with x := (two 7 5).x.set 3 9 } ∧
    ((two 7 5).withProgram [0x11412000, 0x42540000] []).runReadsWritten 2 = true ∧
    ∃ t, Host.Core.run Sys2Proof.core 2 ((two 7 5).withProgram [0x11412000, 0x42540000] []) = .next t :=
  ⟨⟨rfl, by decide +kernel, by decide +kernel, by decide +kernel, by decide +kernel, ⟨rfl, rfl⟩,
    ⟨rfl, rfl, rfl, rfl, rfl⟩⟩, by decide +kernel, ⟨_, rfl⟩⟩

end Sys2Proof.Tests
end

section
/-! The family of the state (10_state.md): the invariant of the unit, the command index, and who writes what. -/

namespace Sys2Proof.Machine

/-! ## The invariant -/

/-- The invariant speaks of `STATUS`, `FCMD`, the marks of the draw and the seed, and the engine a busy unit waits
for; a state that has the same of these is legal too, and further marks on the seed do no harm. -/
theorem State.Legal.congr {s t : State} (h : s.Legal) (control : SameControl s t)
    (markO : t.written.O = s.written.O) (markV : t.written.V = s.written.V)
    (markS : s.written.S = Vector.replicate 4 true → t.written.S = Vector.replicate 4 true)
    (busy : t.busy = s.busy) (engine : t.engine = s.engine) : t.Legal := by
  have hf : t.faulted = s.faulted := State.faulted_eq_of_status control.status
  obtain ⟨b, hO, hV, hS⟩ := h.drawn
  constructor
  case unfaulted => rw [hf, control.status, control.fcmd]; exact h.unfaulted
  case faulted => rw [hf, control.status, control.fcmd]; exact h.faulted
  case drawn => exact ⟨b, markO.trans hO, markV.trans hV, fun hb => markS (hS hb)⟩
  case waiting => rw [hf, busy, engine]; exact h.waiting

theorem State.Legal.moveMade {s : State} (h : s.Legal) : s.moveMade.Legal :=
  h.congr ⟨rfl, rfl⟩ rfl rfl id rfl rfl

theorem State.Legal.receive {s : State} (h : s.Legal) (v : ReadValue) : (s.receive v).Legal :=
  h.congr ⟨rfl, rfl⟩ rfl rfl id rfl rfl

theorem State.Legal.commandDone {s : State} (h : s.Legal) : s.commandDone.Legal :=
  h.congr ⟨by simp, by simp⟩ (by simp) (by simp) (by simp) (by simp) (by simp)

theorem State.Legal.writeX {s : State} (h : s.Legal) (r : RegIdx) (v : Word) : (s.writeX r v).Legal :=
  h.congr ⟨rfl, rfl⟩ rfl rfl id rfl rfl

/-- Setting a mark that is set already changes nothing. -/
theorem replicate_true_set {n : Nat} (w : Fin n) :
    (Vector.replicate n true).set w true = Vector.replicate n true := by
  ext i hi
  simp

theorem State.Legal.writeS {s : State} (h : s.Legal) (w : Fin 4) (v : Word) : (s.writeS w v).Legal :=
  h.congr ⟨rfl, rfl⟩ rfl rfl (fun hS => by rw [State.writeS_written, hS]; exact replicate_true_set w) rfl rfl

/-- A draw marks `O`, `V` and `S` all together (R160). -/
theorem State.Legal.writeDraw {s : State} (h : s.Legal) (o : Vector Half 8) (v q : Vector Word 4) :
    (s.writeDraw o v q).Legal where
  unfaulted := h.unfaulted
  faulted := h.faulted
  drawn := ⟨true, rfl, rfl, fun _ => rfl⟩
  waiting := h.waiting

/-- An unfaulted unit may wait for a silent engine (R60). -/
theorem State.Legal.awaitDigest {s : State} (h : s.Legal) (he : s.engine = .silent) (hf : s.faulted = false) :
    s.awaitDigest.Legal where
  unfaulted := h.unfaulted
  faulted := h.faulted
  drawn := h.drawn
  waiting := fun _ => ⟨he, hf⟩

/-- An idle unit may take the fault that the recorded word raises (R203). -/
theorem State.Legal.takeFault {s : State} (h : s.Legal) {c : DecodeFault} {w : Command}
    (hd : decode w = .fault c) (hb : s.busy = false) : (s.takeFault c w).Legal where
  unfaulted := by simp
  faulted := fun _ => ⟨c, hd, rfl⟩
  drawn := h.drawn
  waiting := by simp [hb]

/-- Whatever the unit was doing, reset leaves it legal (R230). -/
theorem State.afterReset_legal (s : State) : s.afterReset.Legal where
  unfaulted := fun _ => ⟨rfl, rfl⟩
  faulted := by simp
  drawn := ⟨false, rfl, rfl, by simp⟩
  waiting := by simp

/-- A legal command that runs in an unfaulted unit keeps the invariant. -/
theorem Effect.legal {i : Instr} {s t : State} (e : Effect i s t) (h : s.Legal) (hf : s.faulted = false) :
    t.Legal := by
  cases e with
  | register rd v => exact h.writeX rd v
  | seed w v => exact h.writeS w v
  | draw o v q => exact h.writeDraw o v q
  | waits _ he => exact h.awaitDigest he hf

/-- A move of the host keeps the invariant. -/
theorem MoveEffect.legal {m : HostMove} {s t : State} (e : MoveEffect s m t) (h : s.Legal) : t.Legal := by
  cases e with
  | read _ _ v => exact (h.receive v).moveMade
  | ignored | refused => exact h.moveMade
  | writeX r v => exact (h.writeX r v).moveMade
  | writeS w v => exact (h.writeS w v).moveMade
  | faults w c hb _ hd => exact h.moveMade.takeFault hd hb
  | runs w i u _ hf _ _ _ ht => exact (ht.legal h.moveMade hf).commandDone
  | reset => exact State.afterReset_legal _

/-- Settles O51: the reset state is the state a reset of it gives. -/
theorem resetStateIsLegal : Obligations.ResetStateIsLegal :=
  State.afterReset_legal State.reset

/-- Settles O52, by the kinds of move a step can make. -/
theorem stepKeepsLegal : Obligations.StepKeepsLegal := by
  intro s t h hs
  rcases step_effect hs with ⟨-, rfl, -⟩ | ⟨m, rest, -, e⟩
  · exact h
  · exact e.legal h

/-- The three status words of a fault, and their `CAUSE` (R33, R200). -/
theorem statusWord_values (c : DecodeFault) :
    (statusWord c.code = 0x00000011 ∨ statusWord c.code = 0x00000021 ∨ statusWord c.code = 0x00000031) ∧
      (statusWord c.code).extractLsb' 4 4 = c.code := by
  cases c <;> decide

/-- The cause codes of a fault are 1, 2 and 3 (R200). -/
theorem cause_code_values (c : DecodeFault) : c.code = 1 ∨ c.code = 2 ∨ c.code = 3 := by
  cases c <;> decide

/-- Settles O53, by whether the unit is faulted. -/
theorem legalStatusValues : Obligations.LegalStatusValues := by
  intro s h
  cases hf : s.faulted with
  | false =>
    obtain ⟨hs, hw⟩ := h.unfaulted hf
    have hc : s.cause = 0 := by rw [State.cause, hs]; decide
    exact ⟨.inl hs, by simp [hc], fun _ => hw, by simp⟩
  | true =>
    obtain ⟨c, -, hs⟩ := h.faulted hf
    obtain ⟨hv, hc⟩ := statusWord_values c
    have hcause : s.cause = c.code := by rw [State.cause, hs, hc]
    have hne : c.code ≠ 0 := by cases c <;> decide
    refine ⟨.inr (hs ▸ hv), by simpa [hcause] using hne, by simp, fun _ => ?_⟩
    rw [hcause]
    exact cause_code_values c

/-! ## The command index -/

/-- Where the engine answers, a legal command leaves the unit as idle as it was (R53, R60). -/
theorem Effect.busy_eq {i : Instr} {s t : State} (e : Effect i s t) (he : s.engine ≠ .silent) :
    t.busy = s.busy := by
  cases e with
  | register | seed | draw => rfl
  | waits _ hs => exact absurd hs he

/-- What `Issue` does to an idle, unfaulted unit: it accepts the word (R53). -/
theorem step_issue_accepts {s : State} {w : Command} {rest : List HostMove} (hh : s.host = .issue w :: rest)
    (hb : s.busy = false) (hf : s.faulted = false) : step s = accept w s.moveMade := by
  simp [step_of_host hh, hostMove, issueCommand, hb, hf]

/-- Settles O42: a refused word changes nothing but the host's list, a fault nothing but the control registers, and
where the engine answers every legal command leaves an idle, unfaulted unit. -/
theorem commandIndexCountsCommands : Obligations.CommandIndexCountsCommands := by
  intro s w rest hh hb
  refine ⟨fun hf => ⟨s.moveMade, ?_, rfl⟩, ?_, ?_⟩
  · simp [step_of_host hh, hostMove, issueCommand, hb, hf]
  · rintro hf ⟨c, hd⟩
    refine ⟨s.moveMade.takeFault c w, ?_, rfl⟩
    simp [step_issue_accepts hh hb hf, accept, hd]
  · rintro hf ⟨i, hd⟩ he
    obtain ⟨o, -, -, hs, rfl⟩ := (decode_eq_command_iff _ _).1 hd
    obtain ⟨t, ht, e⟩ := exec_effect (o.build w) s.moveMade (wf_of_build hs)
    obtain ⟨hhost, -, -, hci⟩ := e.sameHost
    have hbusy : t.busy = false := (e.busy_eq he).trans hb
    have hfault : t.faulted = false := (State.faulted_eq_of_status e.sameControl.status).trans hf
    refine ⟨t.commandDone, ?_, ?_, ?_, ?_, ?_⟩
    · simp [step_issue_accepts hh hb hf, accept, hd, runCommand, ht]
    · simp [State.commandDone_ci, hbusy, hfault, hci]
    · simp [hbusy]
    · simp [hfault]
    · simp [hhost, hh]

/-! ## Who writes what -/

/-- Only one word decodes to `CHAIN` (R87, R160). -/
theorem eq_of_decode_chain {w : Command} (h : decode w = .command .chain) : w = 0x30000000 := by
  obtain ⟨o, hop, hz, -, hb⟩ := (decode_eq_command_iff _ _).1 h
  cases o with
  | chain =>
    obtain ⟨hd, h1, h2, h0⟩ := hz
    rw [← layout_of_fields w h0, ← hop, hd, h1, h2]
    rfl
  | _ => cases hb

/-- Every legal command but `CHAIN` and `WRS` writes one general register and nothing else (R20, R22). -/
theorem exec_writes_register {i : Instr} (s : State) (hi : i.wf = true) (hc : i ≠ .chain)
    (hw : ∀ sel rs1, i ≠ .wrs sel rs1) : ∃ rd v, exec i s = .next (s.writeX rd v) := by
  cases i with
  | chain => exact absurd rfl hc
  | wrs sel rs1 => exact absurd rfl (hw sel rs1)
  | rds rd sel => exact ⟨rd, _, execRds_inRange rd s (by simpa [Instr.wf] using hi)⟩
  | rdv rd sel => exact ⟨rd, _, execRdv_inRange rd s (by simpa [Instr.wf] using hi)⟩
  | rdo rd sel => exact ⟨rd, _, execRdo_inRange rd s (by simpa [Instr.wf] using hi)⟩
  | fromint rd _ | add rd _ _ | sub rd _ _ | mul rd _ _ | div rd _ _ | adv rd _ | out rd _ | rotr32 rd _ _
  | rotr64 rd _ _ | li rd _ | lsi rd _ | mv rd _ => exact ⟨rd, _, rfl⟩

/-- Only `CHAIN` changes the results of the last draw (R30, R31). -/
theorem Effect.chain_of_draw_changed {i : Instr} {s t : State} (e : Effect i s t) (h : t.O ≠ s.O ∨ t.V ≠ s.V) :
    i = .chain := by
  cases e with
  | draw _ _ _ hi | waits hi _ => exact hi
  | register | seed => simp at h

/-- Only `CHAIN` and `WRS` change the seed (R29). -/
theorem chain_or_wrs_of_seed_changed {i : Instr} {s t : State} (hi : i.wf = true) (he : exec i s = .next t)
    (h : t.S ≠ s.S) : i = .chain ∨ ∃ sel rs1, i = .wrs sel rs1 := by
  by_contra! hno
  obtain ⟨rd, v, hx⟩ := exec_writes_register s hi hno.1 hno.2
  cases hx.symm.trans he
  exact h rfl

/-- `CHAIN` and `WRS` do not change a general register (R20). -/
theorem ne_chain_wrs_of_x_changed {i : Instr} {s t : State} (hi : i.wf = true) (he : exec i s = .next t)
    (e : Effect i s t) (h : t.x ≠ s.x) : i ≠ .chain ∧ ∀ sel rs1, i ≠ .wrs sel rs1 := by
  constructor
  · rintro rfl
    cases e with
    | draw | waits => exact h rfl
    | register _ _ hc | seed _ _ hc => exact hc rfl
  · rintro sel rs1 rfl
    have hx := execWrs_inRange rs1 s (by simpa [Instr.wf] using hi)
    cases hx.symm.trans he
    exact h rfl

theorem MoveEffect.writers_of_draw {m : HostMove} {s t : State} (e : MoveEffect s m t)
    (h : t.O ≠ s.O ∨ t.V ≠ s.V) : m = .reset ∨ m = .issue 0x30000000 := by
  cases e with
  | reset => exact .inl rfl
  | runs w i u _ _ hd _ _ ht =>
    obtain rfl := ht.chain_of_draw_changed (by simpa using h)
    exact .inr (by rw [eq_of_decode_chain hd])
  | read | ignored | writeX | writeS | refused | faults => simp at h

theorem MoveEffect.writers_of_seed {m : HostMove} {s t : State} (e : MoveEffect s m t) (h : t.S ≠ s.S) :
    m = .reset ∨ m = .issue 0x30000000 ∨ (∃ w v, m = .write .S w v) ∨
      ∃ w sel rs1, m = .issue w ∧ decode w = .command (.wrs sel rs1) := by
  cases e with
  | reset => exact .inl rfl
  | writeS w v => exact .inr (.inr (.inl ⟨_, v, rfl⟩))
  | runs w i u _ _ hd hi he _ =>
    rcases chain_or_wrs_of_seed_changed hi he (by simpa using h) with rfl | ⟨sel, rs1, rfl⟩
    · exact .inr (.inl (by rw [eq_of_decode_chain hd]))
    · exact .inr (.inr (.inr ⟨w, sel, rs1, rfl, hd⟩))
  | read | ignored | writeX | refused | faults => simp at h

theorem MoveEffect.writers_of_control {m : HostMove} {s t : State} (e : MoveEffect s m t)
    (h : t.status ≠ s.status ∨ t.fcmd ≠ s.fcmd) :
    m = .reset ∨ ∃ w c, m = .issue w ∧ decode w = .fault c := by
  cases e with
  | reset => exact .inl rfl
  | faults w c _ _ hd => exact .inr ⟨w, c, rfl, hd⟩
  | runs w i u _ _ _ _ _ ht => simp [ht.sameControl.status, ht.sameControl.fcmd] at h
  | read | ignored | writeX | writeS | refused => simp at h

theorem MoveEffect.writers_of_x {m : HostMove} {s t : State} (e : MoveEffect s m t) (h : t.x ≠ s.x) :
    m = .reset ∨ (∃ i v, m = .write .X i v) ∨
      ∃ w i, m = .issue w ∧ decode w = .command i ∧ i ≠ .chain ∧ ∀ sel rs1, i ≠ .wrs sel rs1 := by
  cases e with
  | reset => exact .inl rfl
  | writeX r v => exact .inr (.inl ⟨_, v, rfl⟩)
  | runs w i u _ _ hd hi he ht =>
    exact .inr (.inr ⟨w, i, rfl, hd, ne_chain_wrs_of_x_changed hi he ht (by simpa using h)⟩)
  | read | ignored | writeS | refused | faults => simp at h

/-- Settles O54, one register file at a time. -/
theorem writersOfEachRegister : Obligations.WritersOfEachRegister := by
  intro s t m rest hh hs
  have e : MoveEffect s m t := hostMove_effect (step_of_host hh ▸ hs)
  exact ⟨e.writers_of_draw, e.writers_of_seed, e.writers_of_control, e.writers_of_x⟩

end Sys2Proof.Machine
end

section
/-! Unwritten words never matter (10_state.md R32, R36): one lemma per update of the state and one per function of
the ports says that agreement on the written words is kept. -/

namespace Sys2Proof.Machine

/-! ## Agreement on the written words -/

/-- Two files that agree where a mark is set agree at every index whose mark, if there is one, is set (R32). -/
theorem getElem?_eq_of_marked {α : Type} {n : Nat} {a b : Vector α n} {m : Vector Bool n}
    (h : ∀ r : Fin n, m[r] = true → b[r] = a[r]) {i : Nat} (hw : m[i]?.getD true = true) : b[i]? = a[i]? := by
  by_cases hi : i < n
  · have hv : b[i] = a[i] := h ⟨i, hi⟩ (by simpa [hi] using hw)
    simp [hi, hv]
  · simp [hi]

namespace AgreeOnWritten

theorem refl (s : State) : AgreeOnWritten s s where
  written := rfl
  x _ _ := rfl
  S _ _ := rfl
  O _ _ := rfl
  V _ _ := rfl
  control := .rfl' s
  frame := .rfl' s

section
variable {s s' : State} (h : AgreeOnWritten s s')
include h

theorem faulted_eq : s'.faulted = s.faulted := State.faulted_eq_of_status h.control.status

theorem moveMade : AgreeOnWritten s.moveMade s'.moveMade :=
  { h with control := { h.control with }, frame := { h.frame with host := congrArg List.tail h.frame.host } }

theorem receive (v : ReadValue) : AgreeOnWritten (s.receive v) (s'.receive v) :=
  { h with control := { h.control with }, frame := { h.frame with received := congrArg (· ++ [v]) h.frame.received } }

theorem takeFault (c : DecodeFault) (w : Command) : AgreeOnWritten (s.takeFault c w) (s'.takeFault c w) :=
  { h with control := ⟨rfl, rfl⟩, frame := { h.frame with } }

theorem awaitDigest : AgreeOnWritten s.awaitDigest s'.awaitDigest :=
  { h with control := { h.control with }, frame := { h.frame with busy := rfl } }

/-- A command completes in both states or in neither, so the index stays the same (R27). -/
theorem commandDone : AgreeOnWritten s.commandDone s'.commandDone := by
  have hc : (s'.busy || s'.faulted) = (s.busy || s.faulted) := by rw [h.frame.busy, h.faulted_eq]
  unfold State.commandDone
  rw [hc]
  split
  · exact h
  · exact { h with
      control := { h.control with }, frame := { h.frame with ci := congrArg (· + 1) h.frame.ci } }

/-- Reset forgets the unit's words, and keeps what stands around it (R230). -/
theorem afterReset : AgreeOnWritten s.afterReset s'.afterReset := by
  have : s'.afterReset = s.afterReset := by
    simp only [State.afterReset, h.frame.engine, h.frame.host, h.frame.received]
  exact this ▸ refl _

/-- The same value written to the same register keeps the agreement, whatever the register held. -/
theorem writeX (r : RegIdx) (v : Word) : AgreeOnWritten (s.writeX r v) (s'.writeX r v) where
  written := by simp [h.written]
  x q hq := by
    by_cases e : q = r
    · subst e; rw [State.writeX_read_same, State.writeX_read_same]
    · rw [State.writeX_read_other s v e, State.writeX_read_other s' v e]
      exact h.x q (by simpa [mark_other _ e] using hq)
  S := h.S
  O := h.O
  V := h.V
  control := { h.control with }
  frame := { h.frame with }

/-- The same value written to the same seed word keeps the agreement, whatever the word held. -/
theorem writeS (w : Fin 4) (v : Word) : AgreeOnWritten (s.writeS w v) (s'.writeS w v) where
  written := by simp [h.written]
  x := h.x
  S q hq := by
    by_cases e : q = w
    · subst e; rw [State.writeS_read_same, State.writeS_read_same]
    · rw [State.writeS_read_other s v e, State.writeS_read_other s' v e]
      exact h.S q (by simpa [mark_other _ e] using hq)
  O := h.O
  V := h.V
  control := { h.control with }
  frame := { h.frame with }

theorem writeDraw (o : Vector Half 8) (v q : Vector Word 4) :
    AgreeOnWritten (s.writeDraw o v q) (s'.writeDraw o v q) where
  written := by simp [h.written]
  x := h.x
  S _ _ := rfl
  O _ _ := rfl
  V _ _ := rfl
  control := { h.control with }
  frame := { h.frame with }

/-- A seed whose words are all written is the same seed (R29, R32). -/
theorem seed_eq (hw : s.written.S = Vector.replicate 4 true) : s'.S = s.S :=
  Vector.ext fun i hi => h.S ⟨i, hi⟩ (by simp [hw])

/-- A written element of the host port, and a control register, is the same in both states (R51, R57). -/
theorem element_eq {sp : Space} {i : Nat} (hw : s.elementWritten sp i = true) :
    s'.element sp i = s.element sp i := by
  cases sp with
  | X => exact congrArg (Option.map ReadValue.wide) (getElem?_eq_of_marked h.x hw)
  | S => exact congrArg (Option.map ReadValue.wide) (getElem?_eq_of_marked h.S hw)
  | V => exact congrArg (Option.map ReadValue.wide) (getElem?_eq_of_marked h.V hw)
  | O => exact congrArg (Option.map ReadValue.narrow) (getElem?_eq_of_marked h.O hw)
  | CSR => simp [State.element, h.control.status, h.control.fcmd]

/-- Agreeing states are at a good end together (R242). -/
theorem goodEnd_eq (prog : List Command) : s'.goodEnd prog = s.goodEnd prog := by
  simp only [State.goodEnd, State.idle, h.frame.ci, h.frame.busy, h.faulted_eq]

end

end AgreeOnWritten

/-! ## Agreeing outcomes -/

/-- Where the first outcome is a next state, so is the second, and the two agree on the written words. -/
def NextsAgree (a b : Host.Outcome State Fault Refusal) : Prop :=
  ∀ t, a = .next t → ∃ t', b = .next t' ∧ AgreeOnWritten t t'

theorem AgreeOnWritten.nexts {t t' : State} (h : AgreeOnWritten t t') : NextsAgree (.next t) (.next t') := by
  intro u hu
  cases hu
  exact ⟨t', rfl, h⟩

theorem NextsAgree.of_fault (f : Fault) (b : Host.Outcome State Fault Refusal) : NextsAgree (.fault f) b := by
  intro u hu
  cases hu

theorem NextsAgree.of_refused (r : Refusal) (b : Host.Outcome State Fault Refusal) : NextsAgree (.refused r) b := by
  intro u hu
  cases hu

section
variable {s s' : State} (h : AgreeOnWritten s s')
include h

/-! ## Commands -/

/-- `CHAIN` with a written seed sends the same message, and the same engine answers alike (R60, R160). -/
theorem AgreeOnWritten.execChain (hw : s.written.S = Vector.replicate 4 true) :
    NextsAgree (execChain s) (execChain s') := by
  have hS := h.seed_eq hw
  cases hr : s.engine.reply (message (drawOutputs Config.rotDir Config.outFrom s.S)) with
  | none =>
    have he := (HashEngine.reply_eq_none_iff _ _).1 hr
    rw [execChain_silent he, execChain_silent (h.frame.engine.trans he)]
    exact h.awaitDigest.nexts
  | some d =>
    rw [execChain_answered hr, execChain_answered (by rw [h.frame.engine, hS]; exact hr), hS]
    exact (h.writeDraw _ _ _).nexts

/-- A command of one general register operand. -/
theorem AgreeOnWritten.writeX_of_one (f : Word → Word) (rd : RegIdx) {a : RegIdx} (ha : s.written.x[a] = true) :
    NextsAgree (.next (s.writeX rd (f (s.readX a)))) (.next (s'.writeX rd (f (s'.readX a)))) := by
  rw [State.readX_eq, State.readX_eq, h.x a ha]
  exact (h.writeX rd _).nexts

/-- A command of two general register operands. -/
theorem AgreeOnWritten.writeX_of_two (f : Word → Word → Word) (rd : RegIdx) {a b : RegIdx}
    (hab : (s.written.x[a] && s.written.x[b]) = true) :
    NextsAgree (.next (s.writeX rd (f (s.readX a) (s.readX b))))
      (.next (s'.writeX rd (f (s'.readX a) (s'.readX b)))) := by
  obtain ⟨ha, hb⟩ := Bool.and_eq_true_iff.1 hab
  simp only [State.readX_eq, h.x a ha, h.x b hb]
  exact (h.writeX rd _).nexts

/-- A legal command that reads written words only does the same in both states (R32, K1). -/
theorem AgreeOnWritten.exec {i : Instr} (hi : i.wf = true) (hw : readsWritten i s = true) :
    NextsAgree (exec i s) (exec i s') := by
  cases i with
  | fromint rd a => exact h.writeX_of_one (fun u => nanOr Config.nanAbsorbs [u] (fromInt u)) rd hw
  | add rd a b => exact h.writeX_of_two (fun u v => nanOr Config.nanAbsorbs [u, v] (fxAdd u v)) rd hw
  | sub rd a b => exact h.writeX_of_two (fun u v => nanOr Config.nanAbsorbs [u, v] (fxSub u v)) rd hw
  | mul rd a b => exact h.writeX_of_two (fun u v => nanOr Config.nanAbsorbs [u, v] (fxMul u v)) rd hw
  | div rd a b => exact h.writeX_of_two (fun u v => nanOr Config.nanAbsorbs [u, v] (fxDiv Config.divWide u v)) rd hw
  | adv rd a => exact h.writeX_of_one adv rd hw
  | out rd a => exact h.writeX_of_one (fun u => zext64 (mixOut Config.rotDir u)) rd hw
  | rotr32 rd a b =>
    exact h.writeX_of_two
      (fun u v => zext64 (rotate Config.rotDir (u.extractLsb' 0 32) (v.extractLsb' 0 5).toNat)) rd hw
  | rotr64 rd a b => exact h.writeX_of_two (fun u v => rotate Config.rotDir u (v.extractLsb' 0 6).toNat) rd hw
  | chain => exact h.execChain (by simpa [readsWritten] using hw)
  | rds rd sel =>
    have hs : sel.val ≤ 3 := by simpa [Instr.wf] using hi
    have hv := h.S ⟨sel.val, by omega⟩ (by simpa [readsWritten, wordSel_of_le hs] using hw)
    simp only [Machine.exec, execRds_inRange rd _ hs]
    exact hv ▸ (h.writeX rd _).nexts
  | wrs sel a =>
    have hs : sel.val ≤ 3 := by simpa [Instr.wf] using hi
    simp only [Machine.exec, execWrs_inRange a _ hs, h.x a hw]
    exact (h.writeS _ _).nexts
  | rdv rd sel =>
    have hs : sel.val ≤ 3 := by simpa [Instr.wf] using hi
    have hv := h.V ⟨sel.val, by omega⟩ (by simpa [readsWritten, wordSel_of_le hs] using hw)
    simp only [Machine.exec, execRdv_inRange rd _ hs]
    exact hv ▸ (h.writeX rd _).nexts
  | rdo rd sel =>
    have hs : sel.val ≤ 7 := by simpa [Instr.wf] using hi
    have hv := h.O ⟨sel.val, by omega⟩ (by simpa [readsWritten, outSel_of_le hs] using hw)
    simp only [Machine.exec, execRdo_inRange rd _ hs]
    exact hv ▸ (h.writeX rd _).nexts
  | li rd imm => exact (h.writeX rd _).nexts
  | lsi rd imm => exact h.writeX_of_one (insertImm · imm) rd hw
  | mv rd a => exact h.writeX_of_one id rd hw

theorem AgreeOnWritten.runCommand {i : Instr} (hi : i.wf = true) (hw : readsWritten i s = true) :
    NextsAgree (runCommand i s) (runCommand i s') := by
  obtain ⟨t, ht, -⟩ := exec_effect i s hi
  obtain ⟨t', ht', ha⟩ := h.exec hi hw t ht
  simp only [Machine.runCommand, ht, ht']
  exact ha.commandDone.nexts

/-! ## The moves of the host -/

theorem AgreeOnWritten.accept {w : Command} (hw : ∀ i, decode w = .command i → readsWritten i s = true) :
    NextsAgree (accept w s) (accept w s') := by
  cases hd : decode w with
  | command i =>
    obtain ⟨o, -, -, hs, rfl⟩ := (decode_eq_command_iff _ _).1 hd
    simp only [Machine.accept, hd]
    exact h.runCommand (wf_of_build hs) (hw _ hd)
  | fault c =>
    simp only [Machine.accept, hd]
    exact (h.takeFault c w).nexts

theorem AgreeOnWritten.issueCommand {w : Command}
    (hw : s.busy = false → s.faulted = false → ∀ i, decode w = .command i → readsWritten i s = true) :
    NextsAgree (issueCommand w s) (issueCommand w s') := by
  simp only [Machine.issueCommand, h.frame.busy, h.faulted_eq]
  split
  · exact .of_fault _ _
  · rename_i hb
    split
    · exact h.moveMade.nexts
    · rename_i hf
      exact h.moveMade.accept (hw (by simpa using hb) (by simpa using hf))

theorem AgreeOnWritten.hostRead {sp : Space} {i : Nat} (hw : s.busy = false → s.elementWritten sp i = true) :
    NextsAgree (hostRead sp i s) (hostRead sp i s') := by
  cases hb : s.busy with
  | true =>
    simp only [Machine.hostRead, hb, if_true]
    exact .of_refused _ _
  | false =>
    simp only [Machine.hostRead, h.frame.busy, hb, h.element_eq (hw hb)]
    cases s.element sp i with
    | none => exact .of_refused _ _
    | some v => exact (h.receive v).moveMade.nexts

/-- A write that is ignored in the one state is ignored in the other (R56). -/
theorem AgreeOnWritten.unlessFaulted {t t' : State} (ht : AgreeOnWritten t t') :
    AgreeOnWritten (unlessFaulted s t) (unlessFaulted s' t') := by
  simp only [Machine.unlessFaulted, h.faulted_eq]
  split
  · exact h
  · exact ht

theorem AgreeOnWritten.hostWrite (sp : Space) (i : Nat) (v : Word) :
    NextsAgree (hostWrite sp i v s) (hostWrite sp i v s') := by
  simp only [Machine.hostWrite, h.frame.busy]
  split
  · exact .of_refused _ _
  · cases sp with
    | X =>
      simp only []
      split
      · exact (h.unlessFaulted (h.writeX _ v)).moveMade.nexts
      · exact .of_refused _ _
    | S =>
      simp only []
      split
      · exact (h.unlessFaulted (h.writeS _ v)).moveMade.nexts
      · exact .of_refused _ _
    | V | O | CSR => exact .of_refused _ _

theorem AgreeOnWritten.noMove : NextsAgree (noMove s) (noMove s') := by
  simp only [Machine.noMove, h.frame.busy]
  split
  · exact .of_fault _ _
  · exact h.nexts

/-- A step that reads written words only is the same step in both states. -/
theorem AgreeOnWritten.step (hw : s.stepReadsWritten = true) : NextsAgree (step s) (step s') := by
  cases hh : s.host with
  | nil =>
    simp only [Machine.step, h.frame.host, hh]
    exact h.noMove
  | cons m rest =>
    rw [step_of_host hh, step_of_host (h.frame.host.trans hh)]
    simp only [State.stepReadsWritten, hh] at hw
    cases m with
    | read sp i => exact h.hostRead (fun hb => by simpa [hb] using hw)
    | write sp i v => exact h.hostWrite sp i v
    | issue w => exact h.issueCommand (fun hb hf i hd => by simpa [hb, hf, hd] using hw)
    | reset => exact h.moveMade.afterReset.nexts

end

/-- Settles O55, which is the agreement of the two steps. -/
theorem unwrittenWordsNeverMatter : Obligations.UnwrittenWordsNeverMatter :=
  fun _ _ t h hw hs => h.step hw t hs

/-- A run that reads written words only is the same run from a state that agrees. -/
theorem AgreeOnWritten.run (k : Nat) {s s' t : State} (h : AgreeOnWritten s s')
    (hw : s.runReadsWritten k = true) (hr : Host.Core.run Sys2Proof.core k s = .next t) :
    ∃ t', Host.Core.run Sys2Proof.core k s' = .next t' ∧ AgreeOnWritten t t' := by
  induction k generalizing s s' with
  | zero => exact h.nexts t hr
  | succ k ih =>
    obtain ⟨u, hu, hr⟩ := (run_succ_iff k s t).1 hr
    obtain ⟨hs, hk⟩ := Bool.and_eq_true_iff.1 (State.runReadsWritten_succ k hu ▸ hw)
    obtain ⟨u', hu', hagree⟩ := h.step hs u hu
    obtain ⟨t', ht', ha⟩ := ih hagree hk hr
    exact ⟨t', (run_succ_iff k s' t').2 ⟨u', hu', ht'⟩, ha⟩

/-- Settles O56, from the agreement of the two runs. -/
theorem writtenRunsNeverDependOnReset : Obligations.WrittenRunsNeverDependOnReset := by
  intro k s s' t h hw hr
  obtain ⟨t', ht', ha⟩ := h.run k hw hr
  exact ⟨t', ht', ha, ha.goodEnd_eq⟩

end Sys2Proof.Machine
end

section
/-! The bytes of the hash port (20_memory.md R58 to R63): the message and the digest on their buses, and the numbers
they stand for. -/

namespace Sys2Proof.Machine

/-! ## A bit vector in chunks of one width -/

/-- Bits of a run of bits. -/
theorem extract_of_extract {n : Nat} (v : BitVec n) {start len i m : Nat} (h : i + m ≤ len) :
    (v.extractLsb' start len).extractLsb' i m = v.extractLsb' (start + i) m := by
  refine BitVec.eq_of_getLsbD_eq fun k hk => ?_
  simp [BitVec.getLsbD_extractLsb', show i + k < len by omega, Nat.add_assoc]

/-- The low `n` digits in base `2^c`, the runs of `c` bits of a bit vector, are its number modulo `2^(c * n)`. -/
theorem sum_chunks_mod {m : Nat} (v : BitVec m) (c n : Nat) :
    ∑ j : Fin n, (v.extractLsb' (c * j.val) c).toNat * 2 ^ (c * j.val) = v.toNat % 2 ^ (c * n) := by
  induction n with
  | zero => simp [Nat.mod_one]
  | succ n ih =>
    rw [Fin.sum_univ_castSucc, Nat.mul_succ, Nat.pow_add, Nat.mod_mul, Nat.mul_comm (2 ^ (c * n))]
    simp only [Fin.val_castSucc, Fin.val_last, ih, BitVec.extractLsb'_toNat (c * n), Nat.shiftRight_eq_div_pow]

/-- The number of a bit vector is the sum of its digits in base `2^c`. -/
theorem sum_chunks {m : Nat} (v : BitVec m) (c n : Nat) (h : c * n = m) :
    ∑ j : Fin n, (v.extractLsb' (c * j.val) c).toNat * 2 ^ (c * j.val) = v.toNat := by
  rw [sum_chunks_mod, h, Nat.mod_eq_of_lt v.isLt]

/-- The same sum with the most significant chunk first. -/
theorem sum_chunks_rev {m : Nat} (v : BitVec m) (c n : Nat) (h : c * n = m) :
    ∑ j : Fin n, (v.extractLsb' (c * (n - 1 - j.val)) c).toNat * 2 ^ (c * (n - 1 - j.val)) = v.toNat := by
  rw [← sum_chunks v c n h, ← Equiv.sum_comp Fin.revPerm]
  refine Finset.sum_congr rfl fun j _ => ?_
  have hrev : (Fin.revPerm j).val = n - (j.val + 1) := Fin.val_rev j
  have hr : n - 1 - (Fin.revPerm j).val = j.val := by omega
  rw [hr]

/-! ## The buses -/

/-- A list of bytes as one number, its first byte least significant. -/
def packBytes (bs : List Byte) : Word256 := bs.foldr (fun b acc => (acc <<< 8) ||| b.setWidth 256) 0

theorem packBytes_cons (b : Byte) (bs : List Byte) :
    packBytes (b :: bs) = (packBytes bs <<< 8) ||| b.setWidth 256 := rfl

theorem hashMsgBus_eq_packBytes (M : Message) : hashMsgBus M = packBytes M.toList := by
  rw [hashMsgBus, List.foldl_reverse, packBytes]

theorem randomValue_eq_packBytes (D : Digest) : randomValue D = packBytes D.toList.reverse := by
  rw [randomValue, packBytes, List.foldr_reverse]

/-- A byte put below a number is its lowest byte. -/
theorem lowByte_of_pushByte (v : Word256) (b : Byte) : ((v <<< 8) ||| b.setWidth 256).extractLsb' 0 8 = b := by
  refine BitVec.eq_of_getLsbD_eq fun i hi => ?_
  simp [hi, show i < 256 by omega]

/-- A byte put below a number moves the other bytes up by one place. -/
theorem upperByte_of_pushByte (v : Word256) (b : Byte) {j : Nat} (hj : j < 31) :
    ((v <<< 8) ||| b.setWidth 256).extractLsb' (8 * (j + 1)) 8 = v.extractLsb' (8 * j) 8 := by
  refine BitVec.eq_of_getLsbD_eq fun i hi => ?_
  have hb : b.getLsbD (8 * (j + 1) + i) = false := BitVec.getLsbD_of_ge b _ (by omega)
  simp [hi, hb, show 8 * (j + 1) + i < 256 by omega, show ¬ 8 * (j + 1) + i < 8 by omega,
    show 8 * (j + 1) + i - 8 = 8 * j + i by omega, BitVec.getLsbD_eq_getElem (show 8 * j + i < 256 by omega)]

/-- Byte `j` of the number is byte `j` of the list, as far as 32 bytes go. -/
theorem packBytes_byte (bs : List Byte) (j : Nat) (h : j < bs.length) (hj : j < 32) :
    (packBytes bs).extractLsb' (8 * j) 8 = bs[j] := by
  induction bs generalizing j with
  | nil => simp at h
  | cons b bs ih =>
    rw [packBytes_cons]
    cases j with
    | zero => exact lowByte_of_pushByte _ _
    | succ j =>
      rw [upperByte_of_pushByte _ _ (by omega), List.getElem_cons_succ]
      exact ih j _ (by omega)

/-- Message byte `j` on the message bus (R59). -/
theorem hashMsgBus_byte (M : Message) (j : Fin 32) : (hashMsgBus M).extractLsb' (8 * j.val) 8 = M[j] := by
  rw [hashMsgBus_eq_packBytes, packBytes_byte _ _ (by simp) j.isLt]
  simp

/-- Digest byte `j` on the digest bus (R59). -/
theorem randomValue_byte (D : Digest) (j : Fin 32) : (randomValue D).extractLsb' (248 - 8 * j.val) 8 = D[j] := by
  rw [show 248 - 8 * j.val = 8 * (31 - j.val) by omega, randomValue_eq_packBytes,
    packBytes_byte _ _ (by simp; omega) (by omega)]
  have hj : 31 - (31 - j.val) = j.val := by omega
  simp [List.getElem_reverse, hj]

/-- Output `k` on the message bus (R59): its bits are those of the bytes `4k` to `4k + 3`. -/
theorem hashMsgBus_output (o : Vector Half 8) (k : Fin 8) :
    (hashMsgBus (message o)).extractLsb' (32 * k.val) 32 = o[k] := by
  refine BitVec.eq_of_getLsbD_eq fun i hi => ?_
  have hbyte : (hashMsgBus (message o)).extractLsb' (8 * (4 * k.val + i / 8)) 8 =
      (o[k]).extractLsb' (8 * (i / 8)) 8 :=
    (hashMsgBus_byte (message o) ⟨4 * k.val + i / 8, by omega⟩).trans (message_byte o k ⟨i / 8, by omega⟩)
  have hbit := congrArg (fun b => b.getLsbD (i % 8)) hbyte
  simpa [BitVec.getLsbD_extractLsb', hi, Nat.mod_lt, show 8 * (4 * k.val + i / 8) + i % 8 = 32 * k.val + i by omega,
    Nat.div_add_mod] using hbit

/-- The words of a 256-bit value put together give the value back (R61). -/
theorem joinWords_splitWords (v : Word256) : joinWords (splitWords v) = v := by
  simp only [joinWords, splitWords, Vector.getElem_ofFn]
  rw [BitVec.extractLsb'_append_extractLsb'_eq_extractLsb' (by rfl),
    BitVec.extractLsb'_append_extractLsb'_eq_extractLsb' (by rfl),
    BitVec.extractLsb'_append_extractLsb'_eq_extractLsb' (by rfl)]
  exact BitVec.extractLsb'_eq_self

/-- Word `w` of a 256-bit value (R61). -/
theorem splitWords_word (v : Word256) (w : Fin 4) : (splitWords v)[w] = v.extractLsb' (64 * w.val) 64 := by
  simp [splitWords]

/-- Settles O30: the two buses byte by byte, the outputs and the words as runs of those bytes. -/
theorem hashPortBuses : Obligations.HashPortBuses :=
  ⟨hashMsgBus_byte, hashMsgBus_output, randomValue_byte, fun D => joinWords_splitWords (randomValue D)⟩

/-- Settles O28: both sums are the number on the message bus, in chunks of 8 and of 32 bits. -/
theorem messageIsLittleEndian : Obligations.MessageIsLittleEndian := by
  intro o
  refine ⟨message_byte o, ?_⟩
  calc ∑ b : Fin 32, ((message o)[b]).toNat * 2 ^ (8 * b.val)
      = (hashMsgBus (message o)).toNat := by simp only [← hashMsgBus_byte, sum_chunks]
    _ = ∑ k : Fin 8, (o[k]).toNat * 2 ^ (32 * k.val) := by simp only [← hashMsgBus_output, sum_chunks]

/-- Byte `j` of word `w` of the random value, the first byte most significant (R63). -/
theorem randomValue_wordByte (D : Digest) (w : Fin 4) (j : Fin 8) :
    ((splitWords (randomValue D))[w]).extractLsb' (8 * (7 - j.val)) 8 = D[8 * (3 - w.val) + j.val] := by
  rw [splitWords_word, extract_of_extract _ (by omega),
    show 64 * w.val + 8 * (7 - j.val) = 248 - 8 * (8 * (3 - w.val) + j.val) by omega]
  exact randomValue_byte D ⟨8 * (3 - w.val) + j.val, by omega⟩

/-- Settles O29: the bytes of the random value and of its words are the digest's, most significant first. -/
theorem digestIsBigEndian : Obligations.DigestIsBigEndian := by
  intro D
  refine ⟨?_, splitWords_word _, fun w => ?_⟩
  · rw [← sum_chunks_rev (randomValue D) 8 32 rfl]
    refine Finset.sum_congr rfl fun j _ => ?_
    rw [← randomValue_byte D j, show 248 - 8 * j.val = 8 * (32 - 1 - j.val) by omega]
  · rw [← sum_chunks_rev ((splitWords (randomValue D))[w]) 8 8 rfl]
    exact Finset.sum_congr rfl fun j _ => by rw [← randomValue_wordByte D w j]

end Sys2Proof.Machine
end

section
/-! The moves of the host (20_memory.md R51 to R57, R60; 70_reset_and_hazards.md R240, R243): one lemma per answer of
the ports, at a step, and the statements about them. -/

namespace Sys2Proof.Machine

/-! ## Commands -/

/-- The state after a move, where the list of moves is known. -/
theorem State.moveMade_of_host {s : State} {m : HostMove} {rest : List HostMove} (hh : s.host = m :: rest) :
    s.moveMade = { s with host := rest } := by
  simp [State.moveMade, hh]

/-- A command that has completed without a fault advances the command index (R27). -/
theorem State.commandDone_of_idle {s : State} (hb : s.busy = false) (hf : s.faulted = false) :
    s.commandDone = { s with ci := s.ci + 1 } := by
  simp [State.commandDone, hb, hf]

/-- A command that waits for its digest leaves the command index (R27, R60). -/
theorem State.commandDone_of_busy {s : State} (hb : s.busy = true) : s.commandDone = s := by
  simp [State.commandDone, hb]

/-- A word that decodes to a command, issued to an idle, unfaulted unit, runs that command to its end, or to its
wait (R53, R88). -/
theorem step_issue_runs {s t : State} {w : Command} {i : Instr} {rest : List HostMove}
    (hh : s.host = .issue w :: rest) (hb : s.busy = false) (hf : s.faulted = false) (hd : decode w = .command i)
    (ht : exec i s.moveMade = .next t) : step s = .next t.commandDone := by
  simp [step_issue_accepts hh hb hf, accept, hd, runCommand, ht]

/-- Only a `CHAIN` whose engine is silent makes an idle unit busy (R60). -/
theorem Effect.chain_of_busy {i : Instr} {s t : State} (e : Effect i s t) (hb : s.busy = false)
    (ht : t.busy = true) : i = .chain ∧ s.engine = .silent := by
  cases e with
  | waits hi he => exact ⟨hi, he⟩
  | register | seed | draw => exact absurd (hb.symm.trans ht) (by decide)

/-- Settles O41: the word runs, and its effect says whether it has completed or waits. -/
theorem stepRunsDecodedCommand : Obligations.StepRunsDecodedCommand := by
  intro s w i rest hh hb hf hd
  obtain ⟨o, -, -, hs, rfl⟩ := (decode_eq_command_iff _ _).1 hd
  obtain ⟨t, ht, e⟩ := exec_effect (o.build w) s.moveMade (wf_of_build hs)
  have hstep := step_issue_runs hh hb hf hd ht
  have hfault : t.faulted = false := (State.faulted_eq_of_status e.sameControl.status).trans hf
  obtain ⟨-, -, -, hci⟩ := e.sameHost
  rw [State.moveMade_of_host hh] at ht
  refine ⟨t, ht, hfault, fun hbusy => ?_, fun hbusy => ?_⟩
  · rw [hstep, State.commandDone_of_idle hbusy hfault, hci, State.moveMade_ci]
  · obtain ⟨hchain, hsilent⟩ := e.chain_of_busy hb hbusy
    exact ⟨hchain, hsilent, by rw [hstep, State.commandDone_of_busy hbusy]⟩

/-! ## The busy unit -/

/-- The busy unit does not accept a command and stands still (R53, R243). -/
theorem step_issue_busy {s : State} {w : Command} {rest : List HostMove} (hh : s.host = .issue w :: rest)
    (hb : s.busy = true) : step s = .fault .hashEngineSilent := by
  simp [step_of_host hh, hostMove, issueCommand, hb]

/-- With no move at all the busy unit stands still (R243). -/
theorem step_noMove_busy {s : State} (hh : s.host = []) (hb : s.busy = true) :
    step s = .fault .hashEngineSilent := by
  simp [step, hh, noMove, hb]

/-- Reset is a move at all times (R54, R231). -/
theorem step_reset {s : State} {rest : List HostMove} (hh : s.host = .reset :: rest) :
    step s = .next s.moveMade.afterReset := by
  simp [step_of_host hh, hostMove, hostReset]

/-- A busy unit has no next state but by reset (R243). -/
theorem step_busy_resets {s t : State} (hb : s.busy = true) (h : step s = .next t) :
    s.host.head? = some .reset ∧ t = s.moveMade.afterReset := by
  rcases step_effect h with ⟨-, -, hidle⟩ | ⟨m, rest, hh, e⟩
  · exact absurd (hidle.symm.trans hb) (by decide)
  · cases e with
    | reset => exact ⟨by simp [hh], rfl⟩
    | read _ _ _ hidle | ignored _ _ _ hidle | writeX _ _ hidle | writeS _ _ hidle | refused _ hidle
    | faults _ _ hidle | runs _ _ _ hidle => exact absurd (hidle.symm.trans hb) (by decide)

/-- The word of `CHAIN` (R87, R92). -/
theorem decode_chain_word : decode 0x30000000 = .command .chain := by decide

/-- A `CHAIN` issued to an idle, unfaulted unit with a silent engine waits (R60, R161). -/
theorem step_chain_silent {s : State} {rest : List HostMove} (hh : s.host = .issue 0x30000000 :: rest)
    (hb : s.busy = false) (hf : s.faulted = false) (he : s.engine = .silent) :
    step s = .next s.moveMade.awaitDigest := by
  have ht : exec .chain s.moveMade = .next s.moveMade.awaitDigest := execChain_silent he
  rw [step_issue_runs hh hb hf decode_chain_word ht, State.commandDone_of_busy rfl]

/-- Settles O21: the step is the wait, and what a busy unit can do says the rest. -/
theorem chainWithoutDigestHangs : Obligations.ChainWithoutDigestHangs := by
  intro s rest he hb hf hh
  have hrest : s.moveMade.awaitDigest.host = rest := by simp [hh]
  refine ⟨s.moveMade.awaitDigest, step_chain_silent hh hb hf he, rfl, ⟨⟨rfl, rfl⟩, ⟨rfl, rfl⟩, ⟨rfl, rfl, rfl, rfl⟩⟩,
    ⟨rfl, rfl⟩, rfl, hrest, rfl, ?_, ?_, ?_, ?_⟩
  · intro u hu
    obtain ⟨hreset, rfl⟩ := step_busy_resets rfl hu
    exact ⟨hrest ▸ hreset, rfl, rfl⟩
  · exact fun w more h => step_issue_busy (hrest.trans h) rfl
  · exact fun h => step_noMove_busy (hrest.trans h) rfl
  · exact fun more h => ⟨_, step_reset (hrest.trans h)⟩

/-- Settles O49: both accesses ask first whether the unit is busy. -/
theorem hostAccessWhileBusyRefused : Obligations.HostAccessWhileBusyRefused := by
  rintro s sp i v rest hb (hh | hh)
  · simp [step_of_host hh, hostMove, hostRead, hb]
  · simp [step_of_host hh, hostMove, hostWrite, hb]

/-! ## Host reads: the elements by space and index (R51), then the move -/

theorem State.element_X (s : State) (i : Fin 16) : s.element .X i.val = some (.wide s.x[i]) := by
  simp [State.element]

theorem State.element_S (s : State) (w : Fin 4) : s.element .S w.val = some (.wide s.S[w]) := by
  simp [State.element]

theorem State.element_V (s : State) (w : Fin 4) : s.element .V w.val = some (.wide s.V[w]) := by
  simp [State.element]

theorem State.element_O (s : State) (k : Fin 8) : s.element .O k.val = some (.narrow s.O[k]) := by
  simp [State.element]

/-- A space has no element beyond its last index (R51). -/
theorem State.element_outside {s : State} {sp : Space} {i : Nat}
    (h : (sp = .X ∧ 16 ≤ i) ∨ (sp = .S ∧ 4 ≤ i) ∨ (sp = .V ∧ 4 ≤ i) ∨ (sp = .O ∧ 8 ≤ i) ∨ (sp = .CSR ∧ 2 ≤ i)) :
    s.element sp i = none := by
  rcases h with ⟨rfl, hi⟩ | ⟨rfl, hi⟩ | ⟨rfl, hi⟩ | ⟨rfl, hi⟩ | ⟨rfl, hi⟩
  · simpa [State.element] using hi
  · simpa [State.element] using hi
  · simpa [State.element] using hi
  · simpa [State.element] using hi
  · simp [State.element, show i ≠ 0 by omega, show i ≠ 1 by omega]

/-- What the host has read is no element (R57). -/
@[simp] theorem State.element_read (s : State) (v : ReadValue) (sp : Space) (i : Nat) :
    (s.receive v).moveMade.element sp i = s.element sp i := by
  cases sp <;> rfl

/-- A read of an element gives its value to the host (R54). -/
theorem step_read {s : State} {sp : Space} {i : Nat} {v : ReadValue} {rest : List HostMove}
    (hh : s.host = .read sp i :: rest) (hb : s.busy = false) (hv : s.element sp i = some v) :
    step s = .next (s.receive v).moveMade := by
  simp [step_of_host hh, hostMove, hostRead, hb, hv]

/-- A read of no element is no move (R51, K7). -/
theorem step_read_outside {s : State} {sp : Space} {i : Nat} {rest : List HostMove}
    (hh : s.host = .read sp i :: rest) (hb : s.busy = false) (hv : s.element sp i = none) :
    step s = .refused .noSuchHostMove := by
  simp [step_of_host hh, hostMove, hostRead, hb, hv]

/-- Settles O46: two reads in turn, the elements, and the indices that have none. -/
theorem hostReadHasNoSideEffect : Obligations.HostReadHasNoSideEffect := by
  refine ⟨?_, ?_, fun s sp i rest hh hb hout => step_read_outside hh hb (State.element_outside hout)⟩
  · intro s sp i v rest hh hb hv
    have hfirst := step_read hh hb hv
    have hsecond : step (s.receive v).moveMade = .next ((s.receive v).moveMade.receive v).moveMade :=
      step_read (sp := sp) (i := i) (rest := rest) (by simp [hh]) hb (by simpa using hv)
    exact ⟨_, _, hfirst, hsecond, by simp, by simp [hh], ⟨⟨rfl, rfl⟩, ⟨rfl, rfl⟩, ⟨rfl, rfl, rfl, rfl⟩⟩, ⟨rfl, rfl⟩,
      hb, rfl, rfl⟩
  · exact fun s => ⟨s.element_X, fun w => ⟨s.element_S w, s.element_V w⟩, s.element_O, rfl, rfl⟩

/-! ## Host writes -/

@[simp] theorem State.moveMade_writeX (s : State) (i : RegIdx) (v : Word) :
    (s.writeX i v).moveMade = s.moveMade.writeX i v := rfl

@[simp] theorem State.moveMade_writeS (s : State) (w : Fin 4) (v : Word) :
    (s.writeS w v).moveMade = s.moveMade.writeS w v := rfl

/-- A write of a general register by the host (R54). -/
theorem step_write_X {s : State} {i : RegIdx} {v : Word} {rest : List HostMove}
    (hh : s.host = .write .X i.val v :: rest) (hb : s.busy = false) (hf : s.faulted = false) :
    step s = .next (s.moveMade.writeX i v) := by
  simp [step_of_host hh, hostMove, hostWrite, unlessFaulted, hb, hf]

/-- A write of a seed word by the host (R54). -/
theorem step_write_S {s : State} {w : Fin 4} {v : Word} {rest : List HostMove}
    (hh : s.host = .write .S w.val v :: rest) (hb : s.busy = false) (hf : s.faulted = false) :
    step s = .next (s.moveMade.writeS w v) := by
  simp [step_of_host hh, hostMove, hostWrite, unlessFaulted, hb, hf]

/-- Settles O47: the word is written as a command would write it, with the move taken off the list. -/
theorem hostWriteStoresWord : Obligations.HostWriteStoresWord := by
  intro s v rest hb hf
  constructor
  · intro i hh
    rw [← State.moveMade_of_host hh]
    exact ⟨s.moveMade.writeX i v, step_write_X hh hb hf, State.writeX_read_same _ _ _, writeX_writesOnlyX _ _ _⟩
  · intro w hh
    rw [← State.moveMade_of_host hh]
    exact ⟨s.moveMade.writeS w v, step_write_S hh hb hf, State.writeS_read_same _ _ _, writeS_writesOnlyS _ _ _⟩

/-- Settles O48: the port has writes of `X` and `S` only, and those only up to their last index. -/
theorem hostWriteOutsideTableRefused : Obligations.HostWriteOutsideTableRefused := by
  intro s sp i v rest hh hb hout
  rw [step_of_host hh]
  rcases hout with rfl | rfl | rfl | ⟨rfl, hi⟩ | ⟨rfl, hi⟩
  · simp [hostMove, hostWrite, hb]
  · simp [hostMove, hostWrite, hb]
  · simp [hostMove, hostWrite, hb]
  · simpa [hostMove, hostWrite, hb] using hi
  · simpa [hostMove, hostWrite, hb] using hi

end Sys2Proof.Machine
end

section
/-! The decoder and the encoder undo each other (30_encoding.md R83 to R91), and the columns of the opcode map. -/

namespace Sys2Proof

/-! ## Encoding, then decoding -/

/-- The word of every command holds its opcode and zeros where its format wants zeros (R83, R87). -/
theorem encodeFields_all (i : Instr) : Laws.EncodeFields.Statement i := by
  cases i with
  | fromint rd rs1 => exact Laws.EncodeFields.fromint rd rs1
  | add rd rs1 rs2 => exact Laws.EncodeFields.add rd rs1 rs2
  | sub rd rs1 rs2 => exact Laws.EncodeFields.sub rd rs1 rs2
  | mul rd rs1 rs2 => exact Laws.EncodeFields.mul rd rs1 rs2
  | div rd rs1 rs2 => exact Laws.EncodeFields.div rd rs1 rs2
  | adv rd rs1 => exact Laws.EncodeFields.adv rd rs1
  | out rd rs1 => exact Laws.EncodeFields.out rd rs1
  | rotr32 rd rs1 rs2 => exact Laws.EncodeFields.rotr32 rd rs1 rs2
  | rotr64 rd rs1 rs2 => exact Laws.EncodeFields.rotr64 rd rs1 rs2
  | chain => exact Laws.EncodeFields.chain
  | rds rd sel => exact Laws.EncodeFields.rds rd sel
  | wrs sel rs1 => exact Laws.EncodeFields.wrs sel rs1
  | rdv rd sel => exact Laws.EncodeFields.rdv rd sel
  | rdo rd sel => exact Laws.EncodeFields.rdo rd sel
  | li rd imm => exact Laws.EncodeFields.li rd imm
  | lsi rd imm => exact Laws.EncodeFields.lsi rd imm
  | mv rd rs1 => exact Laws.EncodeFields.mv rd rs1

/-- The fields of a command's word are the command's own, selectors out of range included (R83, R88). -/
theorem build_encode (i : Instr) : i.opcode.build (encode i) = i := by
  cases i <;> simp [Instr.opcode, Opcode.build, encode, rdField, rs1Field, rs2Field, selField]

/-- The selector of a well-formed command's word is in its opcode's range (R86). -/
theorem selField_encode_le {i : Instr} (hi : i.wf = true) : (selField (encode i)).val ≤ i.opcode.selMax := by
  cases i with
  | rds | wrs | rdv | rdo => simpa [selField, encode, Instr.opcode, Opcode.selMax, Instr.wf] using hi
  | fromint | add | sub | mul | div | adv | out | rotr32 | rotr64 | chain | li | lsi | mv =>
    exact Nat.le_of_lt_succ (selField _).isLt

/-- Decoding undoes encoding (R83, R87, R88). -/
theorem decode_encode {i : Instr} (hi : i.wf = true) : decode (encode i) = .command i := by
  obtain ⟨hop, hz⟩ := encodeFields_all i
  exact (decode_eq_command_iff _ _).2 ⟨i.opcode, hop.symm, hz, selField_encode_le hi, build_encode i⟩

/-- Settles O1: a well-formed command's word passes the three tests of decoding, and its fields are the command's. -/
theorem decodeOfEncode : Obligations.DecodeOfEncode := fun _ hi => decode_encode hi

/-! ## Decoding, then encoding -/

/-- A word with zeros where its format wants zeros is the word of the command built from its fields: the fields of the
format and its must-be-zero fields cover every bit (R83, R84). -/
theorem encode_build {o : Opcode} {w : Command} (hop : o.code = opField w) (hz : zeroFields o.format w) :
    encode (o.build w) = w := by
  cases o with
  | add | sub | mul | div | rotr32 | rotr64 =>
    simpa [Opcode.build, encode, rdField, rs1Field, rs2Field, hop] using layout_of_fields w hz
  | fromint | adv | out | mv =>
    obtain ⟨hrs2, hlow⟩ := hz
    simpa [Opcode.build, encode, rdField, rs1Field, hop, hrs2] using layout_of_fields w hlow
  | rds | rdv | rdo =>
    obtain ⟨hrs1, hlow⟩ := hz
    simpa [Opcode.build, encode, rdField, selField, hop, hrs1] using layout_of_fields w hlow
  | wrs =>
    obtain ⟨hrd, hlow⟩ := hz
    simpa [Opcode.build, encode, rs1Field, selField, hop, hrd] using layout_of_fields w hlow
  | li | lsi => simpa [Opcode.build, encode, rdField, hop] using layoutImm_of_fields w hz
  | chain =>
    obtain ⟨hrd, hrs1, hrs2, hlow⟩ := hz
    simpa [Opcode.build, encode, hop, hrd, hrs1, hrs2] using layout_of_fields w hlow

/-- Settles O2: the decoded command is built from the fields of the word, which leave no bit out. -/
theorem encodeOfDecode : Obligations.EncodeOfDecode := by
  intro w i h
  obtain ⟨o, hop, hz, hsel, rfl⟩ := (decode_eq_command_iff w i).1 h
  exact ⟨Machine.wf_of_build hsel, encode_build hop hz⟩

/-! ## The match and mask columns -/

/-- The bits of the selector field that must be zero for the selector to be in range (R86). -/
def Opcode.selMask : Opcode → BitVec 4
  | .rds | .wrs | .rdv => 0xC
  | .rdo => 0x8
  | _ => 0

/-- The mask column is the `op` byte, the must-be-zero fields and the upper bits of a restricted selector (R87). -/
theorem Opcode.maskWord_eq (o : Opcode) :
    o.maskWord = (0xFF#8 ++ 0#24) ||| (o.format.zmask ||| (0#16 ++ o.selMask ++ 0#12)) := by
  cases o <;> rfl

/-- The match column is the `op` byte over zeros (R87). -/
theorem Opcode.matchWord_eq (o : Opcode) : o.matchWord = o.code ++ 0#24 := by
  cases o <;> rfl

/-- A test of two masks at once, whose expected value lies in the first, is the two tests. -/
theorem and_or_eq_iff {n : Nat} {v a b m : BitVec n} (ha : m &&& a = m) (hb : m &&& b = 0#n) :
    v &&& (a ||| b) = m ↔ v &&& a = m ∧ v &&& b = 0#n := by
  constructor
  · intro h
    have absorbLeft : (a ||| b) &&& a = a := by ext; simp +contextual
    have absorbRight : (a ||| b) &&& b = b := by ext; simp +contextual
    exact ⟨by rw [← ha, ← h, BitVec.and_assoc, absorbLeft], by rw [← hb, ← h, BitVec.and_assoc, absorbRight]⟩
  · rintro ⟨h1, h2⟩
    rw [BitVec.and_or_distrib_left, h1, h2, BitVec.or_zero]

/-- The test of the `op` byte (R81, R87). -/
theorem and_opMask_eq_iff (w : Command) (c : BitVec 8) : w &&& (0xFF#8 ++ 0#24) = c ++ 0#24 ↔ c = opField w := by
  have hw : w = opField w ++ w.extractLsb' 0 24 := by
    rw [opField, BitVec.extractLsb'_append_extractLsb'_eq_extractLsb' (by rfl)]
    exact BitVec.extractLsb'_eq_self.symm
  conv_lhs => rw [hw, BitVec.and_append, show 0xFF#8 = BitVec.allOnes 8 from rfl, BitVec.and_allOnes, BitVec.and_zero]
  rw [BitVec.append_left_inj, eq_comm]

/-- The test of the selector field (R81, R86). -/
theorem and_selMask_eq_zero_iff (w : Command) (o : Opcode) :
    w &&& (0#16 ++ o.selMask ++ 0#12) = 0 ↔ (selField w).val ≤ o.selMax := by
  have hw : w = w.extractLsb' 16 16 ++ field4 (selField w) ++ w.extractLsb' 0 12 := by
    rw [selField, field4_nibble, BitVec.extractLsb'_append_extractLsb'_eq_extractLsb' (by rfl),
      BitVec.extractLsb'_append_extractLsb'_eq_extractLsb' (by rfl)]
    exact BitVec.extractLsb'_eq_self.symm
  have hsel : ∀ sel : Sel, field4 sel &&& o.selMask = 0#4 ↔ sel.val ≤ o.selMax := by cases o <;> decide
  rw [← hsel]
  conv_lhs => rw [hw, BitVec.and_append, BitVec.and_append, BitVec.and_zero, BitVec.and_zero]
  rw [show (0 : Command) = 0#16 ++ 0#4 ++ 0#12 from rfl, BitVec.append_left_inj, BitVec.append_right_inj]

/-- A word passes the row's test exactly when it has the row's opcode, zeros where they must be and a selector in
range (R84, R86, R87). -/
theorem and_maskWord_eq_iff (o : Opcode) (w : Command) :
    w &&& o.maskWord = o.matchWord ↔
      o.code = opField w ∧ zeroFields o.format w ∧ (selField w).val ≤ o.selMax := by
  have hop : (o.code ++ 0#24) &&& (0xFF#8 ++ 0#24) = o.code ++ 0#24 := by cases o <;> rfl
  have hrest : (o.code ++ 0#24) &&& (o.format.zmask ||| (0#16 ++ o.selMask ++ 0#12)) = 0 := by cases o <;> rfl
  rw [o.maskWord_eq, o.matchWord_eq, and_or_eq_iff hop hrest, and_or_eq_iff BitVec.zero_and BitVec.zero_and,
    and_opMask_eq_iff, ← zmask_iff_zeroFields, ← and_selMask_eq_zero_iff]
  rfl

/-- A command built for an opcode has that opcode (R87). -/
@[simp] theorem opcode_build (o : Opcode) (w : Command) : (o.build w).opcode = o := by
  cases o <;> rfl

/-- The words that decode to a command of one row (R88). -/
theorem decodes_to_row_iff (o : Opcode) (w : Command) :
    (∃ i, decode w = .command i ∧ i.opcode = o) ↔
      o.code = opField w ∧ zeroFields o.format w ∧ (selField w).val ≤ o.selMax := by
  constructor
  · rintro ⟨i, hd, rfl⟩
    obtain ⟨p, hop, hz, hsel, rfl⟩ := (decode_eq_command_iff w i).1 hd
    rw [opcode_build]
    exact ⟨hop, hz, hsel⟩
  · rintro ⟨hop, hz, hsel⟩
    exact ⟨o.build w, (decode_eq_command_iff _ _).2 ⟨o, hop, hz, hsel, rfl⟩, opcode_build o w⟩

/-- Settles O3: both sides say that the word has the row's opcode, zeros where they must be and a selector in range. -/
theorem decodeMatchesOpcodeTable : Obligations.DecodeMatchesOpcodeTable := fun o w =>
  (and_maskWord_eq_iff o w).trans (decodes_to_row_iff o w).symm

/-! ## Unassigned opcodes -/

/-- The `op` byte as a number (R81). -/
theorem opField_toNat (w : Command) : (opField w).toNat = w.toNat / 2 ^ 24 := by
  have := w.isLt
  rw [opField, BitVec.extractLsb'_toNat, Nat.shiftRight_eq_div_pow]
  omega

/-- The gaps of the opcode map are R89's five ranges. -/
theorem Opcode.ofCode_eq_none_iff (b : BitVec 8) :
    Opcode.ofCode b = none ↔
      (b.toNat ≤ 0x0F ∨ (0x15 ≤ b.toNat ∧ b.toNat ≤ 0x1F) ∨ (0x24 ≤ b.toNat ∧ b.toNat ≤ 0x2F) ∨
        (0x35 ≤ b.toNat ∧ b.toNat ≤ 0x3F) ∨ 0x43 ≤ b.toNat) := by
  simp only [Opcode.ofCode, List.find?_eq_none, Opcode.all, List.forall_mem_cons, List.not_mem_nil, false_implies,
    implies_true, and_true, Opcode.code, beq_iff_eq, ← BitVec.toNat_inj, BitVec.reduceToNat]
  omega

/-- The first test of decoding: it fails for the words without an assigned opcode, and no other test raises its fault
(R88, R89). -/
theorem decode_illegalOpcode_iff (w : Command) :
    decode w = .fault .illegalOpcode ↔ Opcode.ofCode (opField w) = none := by
  unfold decode
  cases Opcode.ofCode (opField w) with
  | none => simp
  | some o => simp only [reduceCtorEq, iff_false]; split_ifs <;> simp

/-- Settles O4: only the lookup of the `op` byte raises `IllegalOpcode`, and it fails in the gaps of the opcode map. -/
theorem unassignedOpcodesAreIllegal : Obligations.UnassignedOpcodesAreIllegal := by
  refine ⟨fun w => ?_, by decide +kernel, by decide, by decide⟩
  rw [decode_illegalOpcode_iff, Opcode.ofCode_eq_none_iff, opField_toNat]

/-- Settles O6: nine fixed words, decoded by evaluation. -/
theorem specWordsDecode : Obligations.SpecWordsDecode := by
  unfold Obligations.SpecWordsDecode
  decide

end Sys2Proof
end

section
/-! The pseudo-instructions (30_encoding.md R93): the commands of an expansion one after the other. -/

namespace Sys2Proof.Machine

/-! ## Loading one register -/

/-- `t` is `s` with `v` in `x[rd]`, and no other register changed, the control registers included (R93). -/
structure Loads (rd : RegIdx) (v : Word) (s t : State) : Prop where
  x : t.x = s.x.set rd v
  seed : SameSeed s t
  draw : SameDraw s t
  control : SameControl s t

/-- A write of a register that ends its command loads it. -/
theorem loads_writeX (rd : RegIdx) (v : Word) (s : State) : Loads rd v s (s.writeX rd v).commandDone := by
  constructor
  case x => simp
  case seed => constructor <;> simp
  case draw => constructor <;> simp
  case control => constructor <;> simp

/-- Of two loads of one register the later one counts. -/
theorem Loads.trans {rd : RegIdx} {v v' : Word} {s t u : State} (h : Loads rd v s t) (h' : Loads rd v' t u) :
    Loads rd v' s u where
  x := by rw [h'.x, h.x, Vector.set_set]
  seed := ⟨h'.seed.S.trans h.seed.S, h'.seed.markS.trans h.seed.markS⟩
  draw := ⟨h'.draw.O.trans h.draw.O, h'.draw.V.trans h.draw.V, h'.draw.markO.trans h.draw.markO,
    h'.draw.markV.trans h.draw.markV⟩
  control := ⟨h'.control.status.trans h.control.status, h'.control.fcmd.trans h.control.fcmd⟩

theorem Loads.value {rd : RegIdx} {v : Word} {s t : State} (h : Loads rd v s t) : t.x[rd] = v := by
  simp [h.x]

theorem Loads.others {rd : RegIdx} {v : Word} {s t : State} (h : Loads rd v s t) {r : RegIdx} (hr : r ≠ rd) :
    t.x[r] = s.x[r] := by
  have : rd.val ≠ r.val := fun e => hr (Fin.ext e.symm)
  simp [h.x, this]

/-- A program that begins with a command that has a next state goes on from the end of that command (R67). -/
theorem runCommands_cons {i : Instr} {s t : State} (h : exec i s = .next t) (rest : List Instr) :
    runCommands (i :: rest) s = runCommands rest t.commandDone := by
  simp [runCommands, runCommand, h]

/-- A program whose first command is `LI` (R190). -/
theorem runCommands_li (rd : RegIdx) (imm : Imm16) (rest : List Instr) (s : State) :
    ∃ t, runCommands (.li rd imm :: rest) s = runCommands rest t ∧ Loads rd (sext64 imm) s t :=
  ⟨_, runCommands_cons rfl rest, loads_writeX rd _ s⟩

/-- A program whose first command is `LSI` (R191). -/
theorem runCommands_lsi {rd : RegIdx} {v : Word} {s t : State} (h : Loads rd v s t) (imm : Imm16) (rest : List Instr) :
    ∃ u, runCommands (.lsi rd imm :: rest) t = runCommands rest u ∧ Loads rd (insertImm v imm) s u :=
  ⟨_, runCommands_cons rfl rest, h.value ▸ h.trans (loads_writeX rd _ t)⟩

/-- A program whose first command is `FROMINT` of a register into itself (R112). -/
theorem runCommands_fromint {rd : RegIdx} {v : Word} {s t : State} (h : Loads rd v s t) (rest : List Instr) :
    ∃ u, runCommands (.fromint rd rd :: rest) t = runCommands rest u ∧ Loads rd (fromInt v) s u :=
  ⟨_, runCommands_cons rfl rest, by simpa [h.value] using h.trans (loads_writeX rd (fromInt t.x[rd]) t)⟩

/-! ## `LI64` -/

/-- The bits of a register after an immediate is inserted (R191). -/
theorem getLsbD_insertImm (v : Word) (imm : Imm16) (i : Nat) :
    (insertImm v imm).getLsbD i = if i < 16 then imm.getLsbD i else (v.extractLsb' 0 48).getLsbD (i - 16) :=
  BitVec.getLsbD_append

/-- Inserting an immediate moves the low bits up and puts the immediate below them (R191). -/
theorem extract_insertImm (v : Word) (imm : Imm16) {n : Nat} (hn : n ≤ 48) :
    (insertImm v imm).extractLsb' 0 (n + 16) = v.extractLsb' 0 n ++ imm := by
  ext i hi
  by_cases h16 : i < 16
  · simp [getLsbD_insertImm, BitVec.getElem_append, h16]
  · simp [getLsbD_insertImm, BitVec.getElem_append, h16, show i - 16 < 48 by omega]

/-- If a register's low `n` bits are the top `n` bits of a constant, inserting the next sixteen bits of the constant
makes it `n + 16`: what each `LSI` of `LI64` does (R93). -/
theorem insertImm_next {u v : Word} {n p : Nat} (hp : n + 16 + p = 64)
    (h : u.extractLsb' 0 n = v.extractLsb' (p + 16) n) :
    (insertImm u (v.extractLsb' p 16)).extractLsb' 0 (n + 16) = v.extractLsb' p (n + 16) := by
  rw [extract_insertImm _ _ (by omega), h, BitVec.extractLsb'_append_extractLsb'_eq_extractLsb' (by rfl)]

/-- A sign-extended immediate keeps its sixteen bits (R12). -/
theorem extract_sext64 (imm : Imm16) : (sext64 imm).extractLsb' 0 16 = imm := by
  have : sext64 imm = imm.signExtend 64 := rfl
  ext i hi
  simp [this, BitVec.getElem_signExtend, hi, show i < 64 by omega]

/-- The four immediates of `LI64`, most significant first, make up its constant (R93). -/
theorem insertImm_li64 (v : Word) :
    insertImm (insertImm (insertImm (sext64 (v.extractLsb' 48 16)) (v.extractLsb' 32 16)) (v.extractLsb' 16 16))
      (v.extractLsb' 0 16) = v := by
  have h1 := extract_sext64 (v.extractLsb' 48 16)
  have h2 := insertImm_next (v := v) (n := 16) (p := 32) rfl h1
  have h3 := insertImm_next (v := v) (n := 32) (p := 16) rfl h2
  have h4 := insertImm_next (v := v) (n := 48) (p := 0) rfl h3
  simpa using h4

/-- `LI64` loads its constant (R93). -/
theorem runCommands_li64 (rd : RegIdx) (v : Word) (s : State) :
    ∃ t, runCommands (Asm.li64 rd v) s = .next t ∧ Loads rd v s t := by
  obtain ⟨t1, r1, l1⟩ := runCommands_li rd (v.extractLsb' 48 16) _ s
  obtain ⟨t2, r2, l2⟩ := runCommands_lsi l1 (v.extractLsb' 32 16) _
  obtain ⟨t3, r3, l3⟩ := runCommands_lsi l2 (v.extractLsb' 16 16) _
  obtain ⟨t4, r4, l4⟩ := runCommands_lsi l3 (v.extractLsb' 0 16) []
  exact ⟨t4, ((r1.trans r2).trans r3).trans r4, insertImm_li64 v ▸ l4⟩

/-! ## `FLI` -/

/-- An immediate's value in raw Q32.32 units (R93, R112). -/
theorem fromInt_sext64 (n : Imm16) : fromInt (sext64 n) = wrap64 (n.toInt * 2 ^ 32) := by
  rw [fromInt, BitVec.shiftLeft_eq_mul_twoPow, wrap64, BitVec.ofInt_mul]
  rfl

/-- The Q32.32 value of an integer of sixteen bits is that integer, exactly (R93, R110). -/
theorem fxValue_wrap64_imm (n : Imm16) : fxValue (wrap64 (n.toInt * 2 ^ 32)) = n.toInt := by
  have hlo : -(2 ^ 15) ≤ n.toInt := BitVec.le_toInt n
  have hhi : n.toInt < 2 ^ 15 := BitVec.toInt_lt
  rw [fxValue, wrap64_toInt (by omega) (by omega)]
  push_cast
  exact mul_div_cancel_right₀ _ (by norm_num [Config.frac])

/-- `FLI` loads its integer as a Q32.32 value (R93). -/
theorem runCommands_fli (rd : RegIdx) (n : Imm16) (s : State) :
    ∃ t, runCommands (Asm.fli rd n) s = .next t ∧ Loads rd (wrap64 (n.toInt * 2 ^ 32)) s t := by
  obtain ⟨t1, r1, l1⟩ := runCommands_li rd n _ s
  obtain ⟨t2, r2, l2⟩ := runCommands_fromint l1 []
  exact ⟨t2, r1.trans r2, fromInt_sext64 n ▸ l2⟩

/-! ## `SEED4` -/

/-- `t` is `s` with the words `S` as its seed, and no other register changed (R93). -/
structure Seeds (S : Vector Word 4) (s t : State) : Prop where
  S : t.S = S
  x : SameX s t
  draw : SameDraw s t
  control : SameControl s t

/-- A program whose next command is `WRS` (R165). -/
theorem runCommands_wrs {S : Vector Word 4} {s t : State} (h : Seeds S s t) {sel : Sel} {w : Fin 4}
    (hw : sel.val = w.val) (r : RegIdx) (rest : List Instr) :
    ∃ u, runCommands (.wrs sel r :: rest) t = runCommands rest u ∧ Seeds (S.set w s.x[r]) s u := by
  have hexec : exec (.wrs sel r) t = .next (t.writeS w t.x[r]) := by
    have := execWrs_inRange r t (sel := sel) (by omega)
    rwa [show (⟨sel.val, by omega⟩ : Fin 4) = w from Fin.ext hw] at this
  refine ⟨_, runCommands_cons hexec rest, ?_⟩
  constructor
  case S => simp [h.S, h.x.x]
  case x => exact ⟨by simp [h.x.x], by simp [h.x.markX]⟩
  case draw => exact ⟨by simp [h.draw.O], by simp [h.draw.V], by simp [h.draw.markO], by simp [h.draw.markV]⟩
  case control => exact ⟨by simp [h.control.status], by simp [h.control.fcmd]⟩

/-- A seed written word by word. -/
theorem set_four_words (S : Vector Word 4) (a b c d : Word) :
    (((S.set 0 a).set 1 b).set 2 c).set 3 d = #v[a, b, c, d] := by
  ext i hi
  interval_cases i <;> simp

/-- `SEED4` loads the seed, its first operand into word 0 (R93). -/
theorem runCommands_seed4 (ra rb rc rd4 : RegIdx) (s : State) :
    ∃ t, runCommands (Asm.seed4 ra rb rc rd4) s = .next t ∧
      Seeds #v[s.x[ra], s.x[rb], s.x[rc], s.x[rd4]] s t := by
  have l0 : Seeds s.S s s := ⟨rfl, .rfl' s, .rfl' s, .rfl' s⟩
  obtain ⟨t1, r1, l1⟩ := runCommands_wrs l0 (sel := 0) (w := 0) rfl ra _
  obtain ⟨t2, r2, l2⟩ := runCommands_wrs l1 (sel := 1) (w := 1) rfl rb _
  obtain ⟨t3, r3, l3⟩ := runCommands_wrs l2 (sel := 2) (w := 2) rfl rc _
  obtain ⟨t4, r4, l4⟩ := runCommands_wrs l3 (sel := 3) (w := 3) rfl rd4 []
  exact ⟨t4, ((r1.trans r2).trans r3).trans r4, set_four_words s.S _ _ _ _ ▸ l4⟩

/-- Settles O35: each expansion, run command by command, loads its register or the seed and keeps everything else. -/
theorem pseudoInstructionsAreExact : Obligations.PseudoInstructionsAreExact := by
  refine ⟨fun rd v s => ⟨rfl, ?_⟩, fun rd n s => ⟨rfl, ?_⟩, fun ra rb rc rd4 s => ⟨rfl, ?_⟩⟩
  · obtain ⟨t, ht, l⟩ := runCommands_li64 rd v s
    exact ⟨t, ht, l.value, fun _ => l.others, l.seed, l.draw, l.control⟩
  · obtain ⟨t, ht, l⟩ := runCommands_fli rd n s
    exact ⟨t, ht, l.value, by rw [l.value, fxValue_wrap64_imm], fun _ => l.others, l.seed, l.draw, l.control⟩
  · obtain ⟨t, ht, l⟩ := runCommands_seed4 ra rb rc rd4 s
    exact ⟨t, ht, l.S, l.x, l.draw, l.control⟩

end Sys2Proof.Machine
end

section
/-! The assembler (30_encoding.md R92, R93): it makes well-formed commands only. -/

namespace Sys2Proof.Machine.Asm

/-- A name's number is at most the largest its letter admits (R92). -/
theorem named_le {letter : Char} {max : Nat} {t : List Char} {r : Fin 16} (h : named letter max t = some r) :
    r.val ≤ max := by
  unfold named at h
  split at h
  · split_ifs at h
    obtain ⟨n, -, hn⟩ := Option.bind_eq_some_iff.1 h
    split_ifs at hn with hmax
    cases hn
    exact hmax.1
  · cases h

/-- A command of a line is well formed: a selector's name ends where its range does (R86, R92). The cases are the arms
of `command`, in its order: two operands without a selector, three registers, `CHAIN`, a selector last, `WRS`. -/
theorem command_wf {o : Opcode} {ops : List (List Char)} {i : Instr} (h : command o ops = some i) : i.wf = true := by
  unfold command at h
  split at h
  all_goals simp only [bind, pure, Option.bind_eq_some_iff, Option.some.injEq, reduceCtorEq] at h
  case h_1 | h_6 | h_7 | h_15 | h_16 | h_17 => obtain ⟨_, -, _, -, rfl⟩ := h; rfl
  case h_2 | h_3 | h_4 | h_5 | h_8 | h_9 => obtain ⟨_, -, _, -, _, -, rfl⟩ := h; rfl
  case h_10 => rw [← h]; rfl
  case h_11 | h_13 | h_14 => obtain ⟨_, -, sel, hsel, rfl⟩ := h; exact decide_eq_true (named_le hsel)
  case h_12 => obtain ⟨sel, hsel, _, -, rfl⟩ := h; exact decide_eq_true (named_le hsel)

/-- A pseudo-instruction expands to well-formed commands: `SEED4` names the four seed words itself (R93). -/
theorem pseudo_wf {m : List Char} {ops : List (List Char)} {is : List Instr} (h : pseudo m ops = some is) :
    ∀ i ∈ is, i.wf = true := by
  unfold pseudo at h
  split at h
  · split_ifs at h
    · simp only [bind, pure, Option.bind_eq_some_iff, Option.some.injEq] at h
      obtain ⟨rd, -, v, -, rfl⟩ := h
      simp [li64, Instr.wf]
    · simp only [bind, pure, Option.bind_eq_some_iff, Option.some.injEq] at h
      obtain ⟨rd, -, n, -, rfl⟩ := h
      simp [fli, Instr.wf]
  · split_ifs at h
    simp only [bind, pure, Option.bind_eq_some_iff, Option.some.injEq] at h
    obtain ⟨ra, -, rb, -, rc, -, rd4, -, rfl⟩ := h
    simp [seed4, Instr.wf]
  · cases h

/-- The commands of an accepted line are well formed: none, one command, or a pseudo-instruction's (R92, R93). -/
theorem line_wf {t : List Char} {is : List Instr} (h : line t = some is) : ∀ i ∈ is, i.wf = true := by
  unfold line at h
  simp only [] at h
  split_ifs at h
  · cases h
    simp
  · split at h
    · obtain ⟨i, hi, rfl⟩ := Option.map_eq_some_iff.1 h
      simpa using command_wf hi
    · exact pseudo_wf h

/-- The words of an accepted program are words of well-formed commands (R92). -/
theorem assemble_wf {lines : List (List Char)} {ws : List Command} (h : assemble lines = some ws) :
    ∀ w ∈ ws, ∃ i : Instr, i.wf = true ∧ encode i = w := by
  induction lines generalizing ws with
  | nil =>
    cases h
    simp
  | cons t rest ih =>
    simp only [assemble, bind, pure, Option.bind_eq_some_iff, Option.some.injEq] at h
    obtain ⟨is, hline, ws', hrest, rfl⟩ := h
    intro w hw
    rcases List.mem_append.1 hw with hw | hw
    · obtain ⟨i, hi, rfl⟩ := List.mem_map.1 hw
      exact ⟨i, line_wf hline i hi, rfl⟩
    · exact ih hrest w hw

/-- Settles O36: the assembler makes words of well-formed commands only, and those decode (R86, R92). -/
theorem assembledWordsAreLegal : Obligations.AssembledWordsAreLegal := by
  intro lines ws h w hw
  obtain ⟨i, hi, rfl⟩ := assemble_wf h w hw
  exact ⟨i, decode_encode hi⟩

end Sys2Proof.Machine.Asm
end

section
/-! The fixed-point commands (40_fixedpoint.md R110 to R120): the write each one is, the integers its result wraps, and
the two roundings in the real numbers the registers stand for. -/

namespace Sys2Proof.Machine

/-! ## Each command writes one register -/

section
variable (rd rs1 rs2 : RegIdx) (s : State)

/-- `FROMINT` is a write of the shifted operand (R112). -/
theorem exec_fromint : exec (.fromint rd rs1) s = .next (s.writeX rd (fromInt s.x[rs1])) := by
  simp [exec, execFromint]

/-- `ADD` is a write of the sum (R113). -/
theorem exec_add : exec (.add rd rs1 rs2) s = .next (s.writeX rd (fxAdd s.x[rs1] s.x[rs2])) := by
  simp [exec, execAdd]

/-- `SUB` is a write of the difference (R114). -/
theorem exec_sub : exec (.sub rd rs1 rs2) s = .next (s.writeX rd (fxSub s.x[rs1] s.x[rs2])) := by
  simp [exec, execSub]

/-- `MUL` is a write of the product (R115). -/
theorem exec_mul : exec (.mul rd rs1 rs2) s = .next (s.writeX rd (fxMul s.x[rs1] s.x[rs2])) := by
  simp [exec, execMul]

/-- `DIV` is a write of the quotient (R116). -/
theorem exec_div : exec (.div rd rs1 rs2) s = .next (s.writeX rd (fxDiv Config.divWide s.x[rs1] s.x[rs2])) := by
  simp [exec, execDiv]

end

/-! ## The integers the results wrap -/

/-- The shift keeps the low half of the operand, above 32 zeros (R112). -/
theorem fromInt_eq_append (n : Word) : fromInt n = n.extractLsb' 0 32 ++ 0#32 :=
  BitVec.shiftLeft_eq_concat_of_lt (by decide)

/-- The shift is the product by `2^32`, wrapped (R112). -/
theorem fromInt_eq_wrap64 (n : Word) : fromInt n = wrap64 (n.toInt * 2 ^ 32) := by
  rw [fromInt, BitVec.shiftLeft_eq_mul_twoPow, wrap64, BitVec.ofInt_mul, BitVec.ofInt_toInt]
  rfl

/-- The sum of the unsigned operands, wrapped (R113). -/
theorem fxAdd_eq_ofNat (a b : Word) : fxAdd a b = BitVec.ofNat 64 (a.toNat + b.toNat) := by
  simp [fxAdd, BitVec.ofNat_add]

/-- The sum of the signed operands, wrapped (R113). -/
theorem fxAdd_eq_wrap64 (a b : Word) : fxAdd a b = wrap64 (a.toInt + b.toInt) := by
  simp [fxAdd, wrap64, BitVec.ofInt_add]

/-- Wrapping commutes with subtraction (R11). -/
theorem wrap64_sub (y z : Int) : wrap64 (y - z) = wrap64 y - wrap64 z := by
  rw [wrap64, wrap64, wrap64, Int.sub_eq_add_neg, BitVec.ofInt_add, BitVec.ofInt_neg, BitVec.sub_eq_add_neg]

/-- The difference of the unsigned operands, wrapped (R114). -/
theorem fxSub_eq_wrap64_toNat (a b : Word) : fxSub a b = wrap64 ((a.toNat : Int) - (b.toNat : Int)) := by
  rw [wrap64_sub]
  simp [fxSub, wrap64]

/-- The difference of the signed operands, wrapped (R114). -/
theorem fxSub_eq_wrap64 (a b : Word) : fxSub a b = wrap64 (a.toInt - b.toInt) := by
  rw [wrap64_sub]
  simp [fxSub, wrap64]

/-- The product is the floor of the exact one over `2^32`, wrapped (R115). -/
theorem fxMul_eq_wrap64_fdiv (a b : Word) : fxMul a b = wrap64 ((a.toInt * b.toInt).fdiv (2 ^ 32)) := by
  rw [fxMul, Int.shiftRight_eq_div_pow, Int.fdiv_eq_ediv_of_nonneg _ (by decide)]
  rfl

/-- Bits 95..32 of an integer's 128-bit form are its floor over `2^32`, wrapped: neither loses a bit below 96. -/
theorem extract_ofInt128 (z : Int) : (BitVec.ofInt 128 z).extractLsb' 32 64 = wrap64 (z.fdiv (2 ^ 32)) := by
  apply BitVec.eq_of_toNat_eq
  rw [wrap64, Int.fdiv_eq_ediv_of_nonneg _ (by decide), BitVec.extractLsb'_toNat, BitVec.toNat_ofInt,
    BitVec.toNat_ofInt, Nat.shiftRight_eq_div_pow]
  omega

/-- The product is bits 95..32 of the 128-bit one (R115). -/
theorem fxMul_eq_extract (a b : Word) :
    fxMul a b = (a.signExtend 128 * b.signExtend 128).extractLsb' 32 64 := by
  have hprod : a.signExtend 128 * b.signExtend 128 = BitVec.ofInt 128 (a.toInt * b.toInt) :=
    (BitVec.ofInt_mul _ _).symm
  rw [hprod, extract_ofInt128, fxMul_eq_wrap64_fdiv]

/-- A zero divisor gives the sentinel (R116). -/
theorem fxDiv_zero (a : Word) : fxDiv Config.divWide a 0 = 0x8000000000000001 := rfl

/-- Any other divisor gives the truncated quotient of the unwrapped dividend, wrapped (R116, D9). -/
theorem fxDiv_of_ne_zero (a : Word) {b : Word} (hb : b ≠ 0) :
    fxDiv Config.divWide a b = wrap64 ((a.toInt * 2 ^ 32).tdiv b.toInt) := by
  rw [fxDiv, if_neg hb]
  rfl

/-! ## The commands -/

/-- Settles O7: the decoded command writes the shifted operand, read in both forms. -/
theorem fromintShiftsLeft : Obligations.FromintShiftsLeft := by
  refine fun rd rs1 => ⟨?_, fun s => ⟨_, exec_fromint rd rs1 s, writeX_writesOnlyX _ _ _, ?_⟩⟩
  · rw [append_zero16]
    exact decode_encode (i := .fromint rd rs1) rfl
  · rw [State.writeX_read_same]
    exact ⟨fromInt_eq_append _, fromInt_eq_wrap64 _⟩

/-- Settles O8: the decoded command writes the sum, which wraps alike in both readings. -/
theorem addWrapsAround : Obligations.AddWrapsAround := by
  refine fun rd rs1 rs2 => ⟨decode_encode (i := .add rd rs1 rs2) rfl,
    fun s => ⟨_, exec_add rd rs1 rs2 s, writeX_writesOnlyX _ _ _, ?_⟩⟩
  rw [State.writeX_read_same]
  exact ⟨fxAdd_eq_ofNat _ _, fxAdd_eq_wrap64 _ _⟩

/-- Settles O9: the decoded command writes the difference, which wraps alike in both readings. -/
theorem subWrapsAround : Obligations.SubWrapsAround := by
  refine fun rd rs1 rs2 => ⟨decode_encode (i := .sub rd rs1 rs2) rfl,
    fun s => ⟨_, exec_sub rd rs1 rs2 s, writeX_writesOnlyX _ _ _, ?_⟩⟩
  rw [State.writeX_read_same]
  exact ⟨fxSub_eq_wrap64_toNat _ _, fxSub_eq_wrap64 _ _⟩

/-- Settles O10: the decoded command writes the product, as a floor and as a run of bits of the exact product. -/
theorem mulFloorsExactProduct : Obligations.MulFloorsExactProduct := by
  refine fun rd rs1 rs2 => ⟨decode_encode (i := .mul rd rs1 rs2) rfl,
    fun s => ⟨_, exec_mul rd rs1 rs2 s, writeX_writesOnlyX _ _ _, ?_⟩⟩
  rw [State.writeX_read_same]
  exact ⟨fxMul_eq_wrap64_fdiv _ _, fxMul_eq_extract _ _⟩

/-- Settles O11: the decoded command writes the sentinel or the truncated quotient, by whether the divisor is zero. -/
theorem divTruncatesWideQuotient : Obligations.DivTruncatesWideQuotient := by
  refine fun rd rs1 rs2 => ⟨decode_encode (i := .div rd rs1 rs2) rfl,
    fun s => ⟨_, exec_div rd rs1 rs2 s, writeX_writesOnlyX _ _ _, ?_⟩⟩
  rw [State.writeX_read_same]
  exact ⟨fun hb => hb ▸ fxDiv_zero _, fun hb => fxDiv_of_ne_zero _ hb⟩

/-! ## Truncation toward zero, in the rationals -/

/-- A truncated quotient is no larger in magnitude than the exact one. -/
theorem abs_tdiv_le (n d : ℤ) : |(n.tdiv d : ℚ)| ≤ |(n : ℚ) / d| := by
  have habs : |n.tdiv d| = (n.natAbs / d.natAbs : ℕ) := by
    rw [Int.abs_eq_natAbs, Int.natAbs_tdiv]
    rfl
  rw [abs_div, ← Int.cast_abs, ← Int.cast_abs, ← Int.cast_abs, habs, Int.abs_eq_natAbs n, Int.abs_eq_natAbs d]
  simpa only [Int.cast_natCast] using Nat.cast_div_le

/-- A truncated quotient is less than one off the exact one: the remainder is smaller than the divisor. -/
theorem abs_div_sub_tdiv_lt_one (n : ℤ) {d : ℤ} (hd : d ≠ 0) : |(n : ℚ) / d - n.tdiv d| < 1 := by
  have hd' : (d : ℚ) ≠ 0 := Int.cast_ne_zero.2 hd
  have hrem : (n : ℚ) / d - n.tdiv d = n.tmod d / d := by
    rw [Int.tmod_def]
    push_cast
    field_simp
  have hlt : |n.tmod d| < |d| := by
    rw [Int.abs_eq_natAbs, Int.abs_eq_natAbs, Int.natAbs_tmod]
    exact_mod_cast Nat.mod_lt _ (Int.natAbs_pos.2 hd)
  rw [hrem, abs_div, div_lt_one (abs_pos.2 hd')]
  exact_mod_cast hlt

/-- An integer less than one off a rational has not the other sign. -/
theorem mul_nonneg_of_abs_sub_lt_one {q : ℤ} {x : ℚ} (h : |x - q| < 1) : 0 ≤ q * x := by
  obtain ⟨hlo, hhi⟩ := abs_lt.1 h
  rcases lt_trichotomy q 0 with hq | rfl | hq
  · have hq' : (q : ℚ) ≤ -1 := by exact_mod_cast Int.le_sub_one_of_lt hq
    exact mul_nonneg_of_nonpos_of_nonpos (by linarith) (by linarith)
  · simp
  · have hq' : (1 : ℚ) ≤ q := by exact_mod_cast hq
    exact mul_nonneg (by linarith) (by linarith)

/-- A truncated quotient fits 64 signed bits where the exact one does. -/
theorem tdiv_fits {n d : ℤ} (hd : d ≠ 0) (hlo : -(2 ^ 63) ≤ (n : ℚ) / d) (hhi : (n : ℚ) / d < 2 ^ 63) :
    -(2 ^ 63) ≤ n.tdiv d ∧ n.tdiv d < 2 ^ 63 := by
  obtain ⟨hbelow, habove⟩ := abs_lt.1 (abs_div_sub_tdiv_lt_one n hd)
  have hmag := abs_tdiv_le n d
  have hfit : (-(2 ^ 63) : ℚ) ≤ n.tdiv d ∧ (n.tdiv d : ℚ) < 2 ^ 63 := by
    rcases le_total 0 ((n : ℚ) / d) with hx | hx
    · rw [abs_of_nonneg hx, abs_le] at hmag
      constructor <;> linarith
    · rw [abs_of_nonpos hx, abs_le] at hmag
      constructor <;> linarith
  exact_mod_cast hfit

/-! ## Rounding -/

/-- The exact product of two registers' values, in the integers they hold (R110). -/
theorem fxValue_mul (a b : Word) :
    fxValue a * fxValue b = ((a.toInt * b.toInt : ℤ) : ℚ) / 2 ^ 32 / 2 ^ 32 := by
  unfold fxValue Config.frac
  push_cast
  ring

/-- The exact quotient of two registers' values, in the integers they hold (R110). -/
theorem fxValue_div (a b : Word) :
    fxValue a / fxValue b = ((a.toInt * 2 ^ 32 : ℤ) : ℚ) / b.toInt / 2 ^ 32 := by
  unfold fxValue Config.frac
  push_cast
  rw [div_div_div_cancel_right₀ (by norm_num)]
  ring

/-- Where the exact product fits, `MUL` is its floor in raw units (R115). -/
theorem fxMul_toInt_eq_floor {a b : Word} (hlo : -(2 ^ 31) ≤ fxValue a * fxValue b)
    (hhi : fxValue a * fxValue b < 2 ^ 31) :
    (fxMul a b).toInt = ⌊((a.toInt * b.toInt : ℤ) : ℚ) / 2 ^ 32⌋ := by
  have hfloor : ⌊((a.toInt * b.toInt : ℤ) : ℚ) / 2 ^ 32⌋ = a.toInt * b.toInt / 2 ^ 32 :=
    mod_cast Rat.floor_intCast_div_natCast (a.toInt * b.toInt) (2 ^ 32)
  rw [fxValue_mul] at hlo hhi
  rw [hfloor]
  refine fxMul_toInt ?_ ?_ <;> rw [← hfloor]
  · exact Int.le_floor.2 (by push_cast at hlo ⊢; linarith)
  · exact Int.floor_lt.2 (by push_cast at hhi ⊢; linarith)

/-- Where the exact product fits, `MUL` is at most it and less than one ulp below it (R118). -/
theorem fxMul_floors {a b : Word} (hlo : -(2 ^ 31) ≤ fxValue a * fxValue b) (hhi : fxValue a * fxValue b < 2 ^ 31) :
    fxValue (fxMul a b) ≤ fxValue a * fxValue b ∧ fxValue a * fxValue b < fxValue (fxMul a b) + 1 / 2 ^ 32 := by
  rw [fxValue, fxMul_toInt_eq_floor hlo hhi, fxValue_mul, Config.frac, ← add_div]
  exact ⟨div_le_div_of_nonneg_right (Int.floor_le _) (by positivity),
    div_lt_div_of_pos_right (Int.lt_floor_add_one _) (by positivity)⟩

/-- A register that is not zero does not read as zero. -/
theorem toInt_ne_zero {b : Word} (hb : b ≠ 0) : b.toInt ≠ 0 := fun h => hb (BitVec.eq_of_toInt_eq h)

/-- Where the exact quotient fits, `DIV` is no larger in magnitude, less than one ulp off it and not of the other sign
(R118). -/
theorem fxDiv_truncates {a b : Word} (hb : b ≠ 0) (hlo : -(2 ^ 31) ≤ fxValue a / fxValue b)
    (hhi : fxValue a / fxValue b < 2 ^ 31) :
    |fxValue (fxDiv Config.divWide a b)| ≤ |fxValue a / fxValue b| ∧
    |fxValue a / fxValue b - fxValue (fxDiv Config.divWide a b)| < 1 / 2 ^ 32 ∧
    0 ≤ fxValue (fxDiv Config.divWide a b) * (fxValue a / fxValue b) := by
  have hnear := abs_div_sub_tdiv_lt_one (a.toInt * 2 ^ 32) (toInt_ne_zero hb)
  have hval : fxValue (fxDiv Config.divWide a b) = ((a.toInt * 2 ^ 32).tdiv b.toInt : ℚ) / 2 ^ 32 := by
    rw [fxValue_div, le_div_iff₀ (by norm_num)] at hlo
    rw [fxValue_div, div_lt_iff₀ (by norm_num)] at hhi
    obtain ⟨hq, hq'⟩ := tdiv_fits (toInt_ne_zero hb) (hlo.trans' (by norm_num)) (hhi.trans_eq (by norm_num))
    rw [fxValue, fxDiv_toInt hb hq hq', Config.frac]
  rw [hval, fxValue_div]
  refine ⟨?_, ?_, ?_⟩
  · rw [abs_div, abs_div _ (2 ^ 32)]
    exact div_le_div_of_nonneg_right (abs_tdiv_le _ _) (abs_nonneg _)
  · rw [← sub_div, abs_div, abs_of_pos (by norm_num : (0 : ℚ) < 2 ^ 32)]
    exact div_lt_div_of_pos_right hnear (by norm_num)
  · rw [div_mul_div_comm]
    exact div_nonneg (mul_nonneg_of_abs_sub_lt_one hnear) (by norm_num)

/-- Settles O12: each rounding where its exact result fits, and the two examples by evaluation. -/
theorem mulFloorsDivTruncates : Obligations.MulFloorsDivTruncates :=
  ⟨fun _ _ hlo hhi => fxMul_floors hlo hhi, fun _ _ hb hlo hhi => fxDiv_truncates hb hlo hhi, by decide, by decide⟩

/-! ## Dividing a product again -/

/-- The scaled floor of a product, divided by one factor, misses the other by less than one: the floor loses less than
`2^32`, and the factor is at least that (R120). -/
theorem abs_div_floor_sub_lt_one (a : ℤ) {b : ℤ} (hb : 2 ^ 32 ≤ |b|) :
    |((a * b / 2 ^ 32 * 2 ^ 32 : ℤ) : ℚ) / b - a| < 1 := by
  have hb0 : (b : ℚ) ≠ 0 := by
    intro h
    simp [Int.cast_eq_zero.1 h] at hb
  have hloss : ((a * b / 2 ^ 32 * 2 ^ 32 : ℤ) : ℚ) / b - a = -((a * b % 2 ^ 32 : ℤ) : ℚ) / b := by
    rw [Int.emod_def]
    push_cast
    field_simp
    ring
  have hlt : |a * b % 2 ^ 32| < |b| := by
    rw [abs_of_nonneg (Int.emod_nonneg _ (by decide))]
    exact (Int.emod_lt_of_pos _ (by decide)).trans_le hb
  rw [hloss, abs_div, abs_neg, div_lt_one (abs_pos.2 hb0)]
  exact_mod_cast hlt

/-- Truncating a rational less than one off an integer gives an integer at most one off it, and no larger in
magnitude. -/
theorem tdiv_near {n d a : ℤ} (hd : d ≠ 0) (h : |(n : ℚ) / d - a| < 1) :
    |n.tdiv d - a| ≤ 1 ∧ |n.tdiv d| ≤ |a| := by
  have hnear := abs_div_sub_tdiv_lt_one n hd
  have hdist : |((n.tdiv d - a : ℤ) : ℚ)| < 2 := by
    rw [abs_lt] at h hnear ⊢
    push_cast
    constructor <;> linarith
  have hmag : |(n.tdiv d : ℚ)| < |(a : ℚ)| + 1 := by
    have := abs_sub_abs_le_abs_sub ((n : ℚ) / d) a
    have := abs_tdiv_le n d
    linarith
  exact ⟨Int.lt_add_one_iff.1 (by exact_mod_cast hdist), Int.lt_add_one_iff.1 (by exact_mod_cast hmag)⟩

/-- An integer at most one off one that fits 64 signed bits, and no larger in magnitude, fits them too. -/
theorem fits_of_near {q a : ℤ} (hdist : |q - a| ≤ 1) (hmag : |q| ≤ |a|) (hlo : -(2 ^ 63) ≤ a) (hhi : a < 2 ^ 63) :
    -(2 ^ 63) ≤ q ∧ q < 2 ^ 63 := by
  rw [abs_le] at hdist hmag
  rcases le_total 0 a with ha | ha
  · rw [abs_of_nonneg ha] at hmag
    omega
  · rw [abs_of_nonpos ha] at hmag
    omega

/-- Dividing a product that fits by a factor of at least `1.0` gives the other factor, up to one raw unit (R120). -/
theorem fxDiv_fxMul_near {a b : Word} (hb : 2 ^ 32 ≤ |b.toInt|) (hlo : -(2 ^ 63) ≤ a.toInt * b.toInt / 2 ^ 32)
    (hhi : a.toInt * b.toInt / 2 ^ 32 < 2 ^ 63) :
    |(fxDiv Config.divWide (fxMul a b) b).toInt - a.toInt| ≤ 1 := by
  have hb0 : b ≠ 0 := by
    rintro rfl
    exact absurd hb (by decide)
  obtain ⟨hdist, hmag⟩ := tdiv_near (toInt_ne_zero hb0) (abs_div_floor_sub_lt_one a.toInt hb)
  rw [← fxMul_toInt hlo hhi] at hdist hmag
  obtain ⟨hfit, hfit'⟩ := fits_of_near hdist hmag (BitVec.le_toInt a) BitVec.toInt_lt
  rwa [fxDiv_toInt hb0 hfit hfit']

/-- Settles O13: the bound on its domain, and the two counter-examples by evaluation. -/
theorem divOfMulWithinOneUlp : Obligations.DivOfMulWithinOneUlp := by
  refine ⟨fun a b hb hlo hhi => ?_, by decide, by decide⟩
  rw [Int.fdiv_eq_ediv_of_nonneg _ (by decide)] at hlo hhi
  exact fxDiv_fxMul_near hb hlo hhi

end Sys2Proof.Machine
end

section
/-! The bit mixer (41_bitmixer.md R142 to R147): the bits a rotation moves, the write each command is, and the laws of
the mixer's functions. -/

namespace Sys2Proof.Machine

/-! ## Rotations -/

/-- Where a rotation to the right by `n` takes bit `i` from: `n % W` places up, or what is left of that after going
round (R144). -/
theorem add_mod_eq_ite {W i : Nat} (n : Nat) (hi : i < W) :
    (i + n) % W = if i < W - n % W then n % W + i else i - (W - n % W) := by
  have hn : n % W < W := Nat.mod_lt n (by omega)
  rw [Nat.add_mod, Nat.mod_eq_of_lt hi]
  split
  · rw [Nat.mod_eq_of_lt (by omega), Nat.add_comm]
  · rw [Nat.mod_eq_sub_mod (by omega), Nat.mod_eq_of_lt (by omega)]
    omega

/-- A rotation takes bit `i` from bit `(i + n) % W`, at every width (R144). -/
theorem getLsbD_rotrW {W i : Nat} (v : BitVec W) (n : Nat) (hi : i < W) :
    (rotrW v n).getLsbD i = v.getLsbD ((i + n) % W) := by
  rw [rotrW_eq_rotateRight, BitVec.getLsbD_rotateRight, add_mod_eq_ite n hi]
  by_cases h : i < W - n % W
  · simp [h]
  · simp [h, hi]

/-- Settles O16: the law of a rotation's bits, at the two widths of the unit. -/
theorem rotationMovesBitsRight : Obligations.RotationMovesBitsRight :=
  ⟨fun v n _ hi => getLsbD_rotrW v n hi, fun v n _ hi => getLsbD_rotrW v n hi⟩

/-- One rotation after another adds the counts: bit `i` comes from bit `(i + a + b) % W` (R147). -/
theorem rotrW_rotrW {W : Nat} (v : BitVec W) (a b : Nat) : rotrW (rotrW v a) b = rotrW v (a + b) := by
  refine BitVec.eq_of_getLsbD_eq fun i hi => ?_
  have hpos : 0 < W := by omega
  rw [getLsbD_rotrW _ b hi, getLsbD_rotrW v a (Nat.mod_lt _ hpos), getLsbD_rotrW v (a + b) hi, Nat.mod_add_mod,
    Nat.add_assoc, Nat.add_comm b a]

/-- A rotation by the width does nothing (R147). -/
theorem rotrW_width {W : Nat} (v : BitVec W) : rotrW v W = v := by
  simp [rotrW]

/-! ## The state function -/

/-- The inverse of the odd multiplier modulo `2^64` (R147). -/
def multInv : Word := 0xC097EF87329E28A5

/-- The inverse is one (R147). -/
theorem mult_mul_multInv : Config.mult * multInv = 1#64 := by decide

/-- The state before an advance: the increment taken off, the multiplier divided out (R147). -/
def unadv (s : Word) : Word := (s - Config.inc) * multInv

/-- An advance is undone (R147). -/
theorem unadv_adv (s : Word) : unadv (adv s) = s := by
  rw [unadv, adv, BitVec.add_sub_cancel, BitVec.mul_assoc, mult_mul_multInv, BitVec.mul_one]

/-- Every state is the advance of the one before it (R147). -/
theorem adv_unadv (s : Word) : adv (unadv s) = s := by
  rw [unadv, adv, BitVec.mul_assoc, BitVec.mul_comm multInv, mult_mul_multInv, BitVec.mul_one, BitVec.sub_add_cancel]

/-- The advance is a bijection of the states (R147). -/
theorem adv_bijective : Function.Bijective adv :=
  Function.bijective_iff_has_inverse.2 ⟨unadv, unadv_adv, adv_unadv⟩

/-! ## The output function -/

/-- The states 0 and 1 differ in a bit that the output's shift drops (R147). -/
theorem mixOut_zero_eq_one : mixOut Config.rotDir 0 = mixOut Config.rotDir 1 := by decide

/-- Different states can give the same output (R147). -/
theorem mixOut_not_injective : ¬ Function.Injective (mixOut Config.rotDir) := fun h =>
  absurd (h mixOut_zero_eq_one) (by decide)

/-- Settles O19: the advance has an explicit inverse, the output function takes 0 and 1 to the same value, and the law
of a rotation's bits adds the counts. -/
theorem mixerLaws : Obligations.MixerLaws :=
  ⟨adv_bijective, adv_bijective.comp adv_bijective, ⟨multInv, mult_mul_multInv, fun s => (unadv_adv s).symm⟩,
    fun _ _ hne => adv_bijective.injective.ne hne, mixOut_not_injective,
    fun v a b => ⟨rotrW_rotrW v a b, rotrW_width v⟩, fun v a b => ⟨rotrW_rotrW v a b, rotrW_width v⟩⟩

/-! ## Each command writes one register -/

/-- The unit rotates to the right (R7, C1, assumption 8). -/
theorem rotate_rotDir {W : Nat} (v : BitVec W) (n : Nat) : rotate Config.rotDir v n = v.rotateRight n :=
  rotrW_eq_rotateRight v n

section
variable (rd rs1 rs2 : RegIdx) (s : State)

/-- `ADV` is a write of the advanced state (R142). -/
theorem exec_adv : exec (.adv rd rs1) s = .next (s.writeX rd (adv s.x[rs1])) := by
  simp [exec, execAdv]

/-- `OUT` is a write of the output function's value, zero-extended (R143). -/
theorem exec_out : exec (.out rd rs1) s = .next (s.writeX rd (zext64 (mixOut Config.rotDir s.x[rs1]))) := by
  simp [exec, execOut]

/-- `ROTR32` is a write of the rotated low half, zero-extended (R145). -/
theorem exec_rotr32 : exec (.rotr32 rd rs1 rs2) s =
    .next (s.writeX rd (zext64 ((s.x[rs1].extractLsb' 0 32).rotateRight (s.x[rs2].extractLsb' 0 5).toNat))) := by
  simp [exec, execRotr32, rotate_rotDir]

/-- `ROTR64` is a write of the rotated operand (R146). -/
theorem exec_rotr64 : exec (.rotr64 rd rs1 rs2) s =
    .next (s.writeX rd (s.x[rs1].rotateRight (s.x[rs2].extractLsb' 0 6).toNat)) := by
  simp [exec, execRotr64, rotate_rotDir]

end

/-! ## The values written -/

/-- The advance in the natural numbers, wrapped (R142). -/
theorem adv_eq_ofNat (s : Word) :
    adv s = BitVec.ofNat 64 (s.toNat * 6364136223846793005 + 1442695040888963407) := by
  rw [BitVec.ofNat_add, BitVec.ofNat_mul, BitVec.ofNat_toNat, BitVec.setWidth_eq]
  rfl

/-- The output before its rotation is bits 58..27 of the state xor-ed with its shift (R143). -/
theorem xorShifted_eq_extract (s : Word) : xorShifted s = (s >>> 18 ^^^ s).extractLsb' 27 32 := by
  rw [xorShifted, ← BitVec.setWidth_eq_extractLsb' (by decide), BitVec.setWidth_ushiftRight_eq_extractLsb]

/-- The top five bits of the state as a number (R143). -/
theorem rotCount_eq_div (s : Word) : rotCount s = s.toNat / 2 ^ 59 := by
  have := s.isLt
  rw [rotCount, BitVec.extractLsb'_toNat, Nat.shiftRight_eq_div_pow]
  omega

/-- The output function is a rotation to the right (R143, C1). -/
theorem mixOut_eq_rotateRight (s : Word) :
    mixOut Config.rotDir s = ((s >>> 18 ^^^ s).extractLsb' 27 32).rotateRight (s.toNat / 2 ^ 59) := by
  rw [mixOut, rotate_rotDir, xorShifted_eq_extract, rotCount_eq_div]

/-! ## The commands -/

/-- Settles O14: the decoded command writes the advanced state. -/
theorem advMultipliesAndAdds : Obligations.AdvMultipliesAndAdds := by
  refine fun rd rs1 => ⟨?_, fun s => ⟨_, exec_adv rd rs1 s, writeX_writesOnlyX _ _ _, ?_⟩⟩
  · rw [append_zero16]
    exact decode_encode (i := .adv rd rs1) rfl
  · rw [State.writeX_read_same, adv_eq_ofNat]

/-- Settles O15: the decoded command writes the output function's value. -/
theorem outRotatesXorShifted : Obligations.OutRotatesXorShifted := by
  refine fun rd rs1 => ⟨?_, fun s => ⟨_, exec_out rd rs1 s, writeX_writesOnlyX _ _ _, ?_⟩⟩
  · rw [append_zero16]
    exact decode_encode (i := .out rd rs1) rfl
  · rw [State.writeX_read_same, mixOut_eq_rotateRight]
    rfl

/-- Settles O17: the decoded command writes the rotated low half. -/
theorem rotr32RotatesLowHalf : Obligations.Rotr32RotatesLowHalf := by
  refine fun rd rs1 rs2 => ⟨decode_encode (i := .rotr32 rd rs1 rs2) rfl,
    fun s => ⟨_, exec_rotr32 rd rs1 rs2 s, writeX_writesOnlyX _ _ _, ?_⟩⟩
  rw [State.writeX_read_same, BitVec.extractLsb'_toNat, BitVec.setWidth_eq_extractLsb' (by decide)]
  rfl

/-- Settles O18: the decoded command writes the rotated operand. -/
theorem rotr64RotatesWord : Obligations.Rotr64RotatesWord := by
  refine fun rd rs1 rs2 => ⟨decode_encode (i := .rotr64 rd rs1 rs2) rfl,
    fun s => ⟨_, exec_rotr64 rd rs1 rs2 s, writeX_writesOnlyX _ _ _, ?_⟩⟩
  rw [State.writeX_read_same, BitVec.extractLsb'_toNat]
  rfl

end Sys2Proof.Machine
end

section
/-! The hash chain (42_hashchain.md R160 to R168): the words its commands are decoded from, the draw `CHAIN` writes
lane by lane, the inverse of the seed map, and the word-selector moves. -/

namespace Sys2Proof.Machine

/-! ## The words of the commands -/

/-- The word of a command whose selector is out of range raises `SelectorRange` (R86, R88). -/
theorem decode_encode_selectorRange {i : Instr} (hi : i.wf = false) : decode (encode i) = .fault .selectorRange := by
  obtain ⟨hop, hz⟩ := encodeFields_all i
  refine decode_selectorRange hop hz (Nat.lt_of_not_le fun hle => ?_)
  have hwf : (i.opcode.build (encode i)).wf = true := wf_of_build hle
  simp [build_encode, hi] at hwf

/-- Of the words with the opcode of `CHAIN` only the one with zeros below it is legal (R84, R160). -/
theorem decode_chain_opcode (z : BitVec 24) :
    decode (0x30#8 ++ z) = if z = 0 then .command .chain else .fault .reservedField := by
  have hop : opField (0x30#8 ++ z) = Opcode.chain.code := BitVec.extractLsb'_append_eq_left
  split
  next hz => exact hz ▸ decode_chain_word
  next hz =>
    refine decode_reserved hop fun hzero => hz ?_
    have hw : 0x30#8 ++ z = 0x30#8 ++ 0#24 := (encode_build hop.symm hzero).symm
    exact (BitVec.append_right_inj _).1 hw

/-! ## The draw, lane by lane -/

/-- The first output of a lane is of its once advanced state (R160; D13, C1). -/
theorem drawOutputs_even (S : Vector Word 4) (i : Fin 4) :
    (drawOutputs Config.rotDir Config.outFrom S)[2 * i.val] = mixOut .right (adv S[i]) := by
  fin_cases i <;> rfl

/-- The second output of a lane is of its twice advanced state (R160; D13, C1). -/
theorem drawOutputs_odd (S : Vector Word 4) (i : Fin 4) :
    (drawOutputs Config.rotDir Config.outFrom S)[2 * i.val + 1] = mixOut .right (adv (adv S[i])) := by
  fin_cases i <;> rfl

/-- The final state of lane `i` is word `PERM i` of the next seed (R6, R160). -/
theorem nextSeed_perm (S : Vector Word 4) (i : Fin 4) : (nextSeed S)[Config.perm i] = adv (adv S[i]) := by
  fin_cases i <;> rfl

/-- Every word of the next seed is some lane's (R6). -/
theorem perm_surjective : Function.Surjective Config.perm := by decide

/-- The random value is the digest's bytes as one number, byte 0 most significant (R63). -/
theorem randomValue_eq_ofNat (D : Digest) :
    randomValue D = BitVec.ofNat 256 (∑ j : Fin 32, (D[j]).toNat * 2 ^ (8 * (31 - j.val))) := by
  rw [← (digestIsBigEndian D).1, BitVec.ofNat_toNat, BitVec.setWidth_eq]

/-- The state after a draw whose digest is `D` (R160). -/
def State.drawn (s : State) (D : Digest) : State :=
  s.writeDraw (drawOutputs Config.rotDir Config.outFrom s.S) (splitWords (randomValue D)) (nextSeed s.S)

/-- `D` is the engine's answer to the message of the draw from `s` (R58, R160). -/
def State.Receives (s : State) (D : Digest) : Prop :=
  s.engine.reply (message (drawOutputs Config.rotDir Config.outFrom s.S)) = some D

/-- Where the engine answers, `CHAIN` is the draw with its answer (R160). -/
theorem exec_chain_answers {s : State} (he : s.engine ≠ .silent) :
    ∃ D, s.Receives D ∧ exec .chain s = .next (s.drawn D) := by
  obtain ⟨D, hD⟩ := Option.ne_none_iff_exists'.1 (mt (HashEngine.reply_eq_none_iff s.engine _).1 he)
  exact ⟨D, hD, execChain_answered hD⟩

/-- What a `CHAIN` whose engine answers leads to (R160). -/
theorem eq_drawn_of_exec_chain {s t : State} (he : s.engine ≠ .silent) (h : exec .chain s = .next t) :
    ∃ D, s.Receives D ∧ t = s.drawn D := by
  obtain ⟨D, hD, hex⟩ := exec_chain_answers he
  cases hex.symm.trans h
  exact ⟨D, hD, rfl⟩

/-- Two draws from one seed through one engine receive the same digest (R58, R163). -/
theorem State.Receives.unique {s s' : State} {D D' : Digest} (h : s.Receives D) (h' : s'.Receives D')
    (hS : s'.S = s.S) (he : s'.engine = s.engine) : D' = D := by
  rw [State.Receives, hS, he] at h'
  exact Option.some.inj (h'.symm.trans h)

section
variable (s : State) (D : Digest)
@[simp] theorem State.drawn_S : (s.drawn D).S = nextSeed s.S := rfl
@[simp] theorem State.drawn_O : (s.drawn D).O = drawOutputs Config.rotDir Config.outFrom s.S := rfl
@[simp] theorem State.drawn_V : (s.drawn D).V = splitWords (randomValue D) := rfl

/-- A draw marks `S`, `O` and `V` as written (R32). -/
theorem State.drawn_marks : (∀ w : Fin 4, (s.drawn D).written.S[w] = true ∧ (s.drawn D).written.V[w] = true) ∧
    ∀ k : Fin 8, (s.drawn D).written.O[k] = true := by
  simp [State.drawn, Written.drawn]

/-- Word `w` of `V` after a draw (R61, R63, R160). -/
theorem State.drawn_V_word (w : Fin 4) : (s.drawn D).V[w] =
    (BitVec.ofNat 256 (∑ j : Fin 32, (D[j]).toNat * 2 ^ (8 * (31 - j.val)))).extractLsb' (64 * w.val) 64 := by
  rw [State.drawn_V, splitWords_word, randomValue_eq_ofNat]

end

/-- Settles O20: one legal word, and the draw with the engine's answer, lane by lane. -/
theorem chainDrawsOnce : Obligations.ChainDrawsOnce := by
  refine ⟨decode_chain_opcode, fun s he => ?_⟩
  obtain ⟨D, hD, hex⟩ := exec_chain_answers he
  obtain ⟨hSV, hO⟩ := s.drawn_marks D
  exact ⟨s.drawn D, message (s.drawn D).O, D, hex, hD,
    fun i => ⟨drawOutputs_even s.S i, drawOutputs_odd s.S i⟩, message_byte _, s.drawn_V_word D,
    nextSeed_perm s.S 0, nextSeed_perm s.S 1, nextSeed_perm s.S 2, nextSeed_perm s.S 3, hSV, hO,
    ⟨rfl, rfl⟩, ⟨rfl, rfl⟩, ⟨rfl, rfl, rfl, rfl, rfl⟩⟩

/-- Settles O23: lane `i`'s outputs and final state are functions of `S[i]`. -/
theorem lanesAreIndependent : Obligations.LanesAreIndependent := by
  intro s s' t t' i he he' hS h h'
  obtain ⟨D, -, rfl⟩ := eq_drawn_of_exec_chain he h
  obtain ⟨D', -, rfl⟩ := eq_drawn_of_exec_chain he' h'
  simp only [State.drawn_O, State.drawn_S, drawOutputs_even, drawOutputs_odd, nextSeed_perm, hS, and_self]

/-! ## The seed map -/

/-- The seed before a draw: each lane's final state taken back two advances (R147, R163). -/
def prevSeed (S : Vector Word 4) : Vector Word 4 := Vector.ofFn fun i => unadv (unadv S[Config.perm i])

/-- Lane `i` of the seed before a draw (R163). -/
theorem prevSeed_lane (S : Vector Word 4) (i : Fin 4) : (prevSeed S)[i] = unadv (unadv S[Config.perm i]) := by
  simp [prevSeed]

/-- A draw's change of the seed is undone (R163). -/
theorem prevSeed_nextSeed (S : Vector Word 4) : prevSeed (nextSeed S) = S := by
  have hwords (i : Fin 4) : (prevSeed (nextSeed S))[i] = S[i] := by
    rw [prevSeed_lane, nextSeed_perm, unadv_adv, unadv_adv]
  exact Vector.ext fun w hw => hwords ⟨w, hw⟩

/-- Every seed is the next seed of the one before it (R163). -/
theorem nextSeed_prevSeed (S : Vector Word 4) : nextSeed (prevSeed S) = S := by
  have hwords : ∀ w : Fin 4, (nextSeed (prevSeed S))[w] = S[w] :=
    perm_surjective.forall.2 fun i => by rw [nextSeed_perm, prevSeed_lane, adv_unadv, adv_unadv]
  exact Vector.ext fun w hw => hwords ⟨w, hw⟩

/-- The seed map is a bijection of the 256-bit states (R163). -/
theorem nextSeed_bijective : Function.Bijective nextSeed :=
  Function.bijective_iff_has_inverse.2 ⟨prevSeed, prevSeed_nextSeed, nextSeed_prevSeed⟩

/-- Settles O22: the seed map has an explicit inverse, and a draw writes functions of the seed and of the digest. -/
theorem seedMapIsBijective : Obligations.SeedMapIsBijective := by
  refine ⟨nextSeed_bijective, fun s s' t t' he he' hS h h' => ?_, fun s s' t t' he he' hS h h' => ?_⟩
  · obtain ⟨D, hD, rfl⟩ := eq_drawn_of_exec_chain he h
    obtain ⟨D', hD', rfl⟩ := eq_drawn_of_exec_chain he' h'
    refine ⟨by simp [hS], by simp [hS], fun heng => ?_⟩
    simp [hD.unique hD' hS heng]
  · obtain ⟨D, -, rfl⟩ := eq_drawn_of_exec_chain he h
    obtain ⟨D', -, rfl⟩ := eq_drawn_of_exec_chain he' h'
    exact nextSeed_bijective.injective.ne hS

/-! ## The word-selector moves -/

/-- A word with the opcode of `WRS` and a nonzero field 23:20 raises `ReservedField`, whatever its selector (R84,
R165). -/
theorem decode_wrs_reserved {z : BitVec 4} (hz : z ≠ 0) (a b : BitVec 4) :
    decode (layout Opcode.wrs.code z a b) = .fault .reservedField := by
  refine decode_reserved (opField_layout _ _ _ _) fun hzero => hz ?_
  obtain ⟨hrd, -⟩ := hzero
  rwa [rd_bits_layout] at hrd

/-- Settles O24: the decoded command is a write of the selected state word. -/
theorem rdsCopiesSeedWord : Obligations.RdsCopiesSeedWord := fun rd sel =>
  ⟨fun h => decode_encode_selectorRange (i := .rds rd sel) (decide_eq_false (by omega)),
    fun h => ⟨decode_encode (i := .rds rd sel) (decide_eq_true h),
      fun s => ⟨_, execRds_inRange rd s h, writeX_writesOnlyX _ _ _, State.writeX_read_same _ _ _⟩⟩⟩

/-- Settles O25: the decoded command is a write of the register to the selected state word. -/
theorem wrsWritesSeedWord : Obligations.WrsWritesSeedWord := fun sel rs1 =>
  ⟨fun h => decode_encode_selectorRange (i := .wrs sel rs1) (decide_eq_false (by omega)),
    fun _ hz => decode_wrs_reserved hz _ _,
    fun h => ⟨decode_encode (i := .wrs sel rs1) (decide_eq_true h),
      fun s => ⟨_, execWrs_inRange rs1 s h, writeS_writesOnlyS _ _ _, State.writeS_read_same _ _ _⟩⟩⟩

/-- Settles O26: the decoded command is a write of the selected word of the random value. -/
theorem rdvCopiesRandomWord : Obligations.RdvCopiesRandomWord := fun rd sel =>
  ⟨fun h => decode_encode_selectorRange (i := .rdv rd sel) (decide_eq_false (by omega)),
    fun h => ⟨decode_encode (i := .rdv rd sel) (decide_eq_true h),
      fun s => ⟨_, execRdv_inRange rd s h, writeX_writesOnlyX _ _ _, State.writeX_read_same _ _ _⟩⟩⟩

/-- Settles O27: the decoded command is a write of the selected output, zero-extended. -/
theorem rdoCopiesOutput : Obligations.RdoCopiesOutput := fun rd sel =>
  ⟨fun h => decode_encode_selectorRange (i := .rdo rd sel) (decide_eq_false (by omega)),
    fun h => ⟨decode_encode (i := .rdo rd sel) (decide_eq_true h),
      fun s => ⟨_, execRdo_inRange rd s h, writeX_writesOnlyX _ _ _, State.writeX_read_same _ _ _⟩⟩⟩

end Sys2Proof.Machine
end

section
/-! The immediate and move commands (43_move_immediate.md R190 to R192): the words they are decoded from, with every
must-be-zero field that raises `ReservedField`, and the write each command is. -/

namespace Sys2Proof.Machine

/-! ## Words with any bits in their must-be-zero field -/

section
variable (op : BitVec 8) (d a : BitVec 4) (m : BitVec 16)

/-- The opcode of a word of two fields and sixteen low bits (R81). -/
theorem opField_append16 : opField (op ++ d ++ a ++ m) = op := by
  simp (disch := omega) only [opField, BitVec.extractLsb'_append_eq_of_le]
  exact BitVec.extractLsb'_eq_self

/-- Bits 19..16 of such a word (R81). -/
theorem rs1_bits_append16 : (op ++ d ++ a ++ m).extractLsb' 16 4 = a := by
  simp (disch := omega) only [BitVec.extractLsb'_append_eq_of_le, BitVec.extractLsb'_append_eq_of_add_le]
  exact BitVec.extractLsb'_eq_self

/-- Bits 15..0 of such a word, as the two must-be-zero fields of format R2 (R83). -/
theorem low_bits_append16 :
    (op ++ d ++ a ++ m).extractLsb' 12 4 ++ (op ++ d ++ a ++ m).extractLsb' 0 12 = m := by
  rw [BitVec.extractLsb'_append_extractLsb'_eq_extractLsb' (by rfl)]
  exact BitVec.extractLsb'_append_eq_right

end

/-- A word of format I with a nonzero field 19..16 raises `ReservedField` (R84). -/
theorem decode_formatI_reserved {o : Opcode} (ho : o.format = .i) (d : BitVec 4) {z : BitVec 4} (hz : z ≠ 0)
    (imm : Imm16) : decode (o.code ++ d ++ z ++ imm) = .fault .reservedField := by
  refine decode_reserved (opField_append16 _ _ _ _) fun hzero => hz ?_
  rw [ho] at hzero
  exact (rs1_bits_append16 _ _ _ _).symm.trans hzero

/-- A word of format R2 with a nonzero field 15..0 raises `ReservedField` (R84). -/
theorem decode_formatR2_reserved {o : Opcode} (ho : o.format = .r2) (d a : BitVec 4) {z : BitVec 16} (hz : z ≠ 0) :
    decode (o.code ++ d ++ a ++ z) = .fault .reservedField := by
  refine decode_reserved (opField_append16 _ _ _ _) fun hzero => hz ?_
  rw [ho] at hzero
  obtain ⟨hrs2, hlow⟩ := hzero
  rw [← low_bits_append16 o.code d a z, hrs2, hlow]
  rfl

/-! ## Each command writes one register -/

section
variable (rd rs1 : RegIdx) (imm : Imm16) (s : State)

/-- `LI` is a write of the sign-extended immediate (R190). -/
theorem exec_li : exec (.li rd imm) s = .next (s.writeX rd (imm.signExtend 64)) := rfl

/-- `LSI` is a write of the register's old value with the immediate inserted (R191). -/
theorem exec_lsi : exec (.lsi rd imm) s = .next (s.writeX rd (insertImm s.x[rd] imm)) := by
  simp [exec, execLsi]

/-- `MV` is a write of the source (R192). -/
theorem exec_mv : exec (.mv rd rs1) s = .next (s.writeX rd s.x[rs1]) := by
  simp [exec, execMv]

/-- A copy keeps its source, also where it is the destination (R192). -/
theorem State.writeX_copy_source : (s.writeX rd s.x[rs1]).x[rs1] = s.x[rs1] := by
  by_cases h : rs1 = rd
  · subst h
    exact State.writeX_read_same _ _ _
  · exact State.writeX_read_other s _ h

end

/-- Inserting an immediate multiplies by 2^16 and adds it, wrapped (R11, R191). -/
theorem insertImm_eq_ofNat (v : Word) (imm : Imm16) :
    insertImm v imm = BitVec.ofNat 64 (v.toNat * 2 ^ 16 + imm.toNat) := by
  have himm := imm.isLt
  apply BitVec.eq_of_toNat_eq
  rw [insertImm, BitVec.toNat_append, ← Nat.shiftLeft_add_eq_or_of_lt himm, BitVec.extractLsb'_toNat,
    BitVec.toNat_ofNat]
  omega

/-! ## The commands -/

/-- Settles O32: the decoded command is a write of the sign-extended immediate. -/
theorem liSignExtends : Obligations.LiSignExtends := fun rd imm =>
  ⟨decode_encode (i := .li rd imm) rfl, fun _ hz => decode_formatI_reserved (o := .li) rfl _ hz _,
    fun s => ⟨_, exec_li rd imm s, writeX_writesOnlyX _ _ _, State.writeX_read_same _ _ _⟩⟩

/-- Settles O33: the decoded command is a write of the register's old value with the immediate inserted, read as bits
and as a number. -/
theorem lsiShiftsAndInserts : Obligations.LsiShiftsAndInserts := by
  refine fun rd imm => ⟨decode_encode (i := .lsi rd imm) rfl,
    fun _ hz => decode_formatI_reserved (o := .lsi) rfl _ hz _,
    fun s => ⟨_, exec_lsi rd imm s, writeX_writesOnlyX _ _ _, ?_⟩⟩
  rw [State.writeX_read_same]
  exact ⟨rfl, insertImm_eq_ofNat _ _⟩

/-- Settles O34: the decoded command is a write of the source, which keeps its value. -/
theorem mvCopiesRegister : Obligations.MvCopiesRegister := by
  refine fun rd rs1 => ⟨?_, fun _ hz => decode_formatR2_reserved (o := .mv) rfl _ _ hz,
    fun s => ⟨_, exec_mv rd rs1 s, writeX_writesOnlyX _ _ _, State.writeX_read_same _ _ _,
      State.writeX_copy_source _ _ _⟩⟩
  rw [append_zero16]
  exact decode_encode (i := .mv rd rs1) rfl

end Sys2Proof.Machine
end

section
/-! Faults (60_exceptions.md R200 to R208, R217): which words raise which fault, the entry into the faulted state, what
the faulted unit does with each move of the host, and how runs go that meet a fault. -/

namespace Sys2Proof.Machine

/-! ## Which words raise which fault -/

/-- The match column of every row is a legal word of that row (R87). -/
theorem decodes_matchWord (o : Opcode) : ∃ w i, opField w = o.code ∧ decode w = .command i := by
  have hmatch : o.matchWord &&& o.maskWord = o.matchWord := by cases o <;> rfl
  have hrow := (and_maskWord_eq_iff o o.matchWord).1 hmatch
  obtain ⟨i, hd, -⟩ := (decodes_to_row_iff o o.matchWord).2 hrow
  exact ⟨o.matchWord, i, hrow.1.symm, hd⟩

/-- Every format has a must-be-zero bit, so ones below the `op` byte raise `ReservedField` (R84). -/
theorem decode_ones_reserved (o : Opcode) : decode (o.code ++ 0xFFFFFF#24) = .fault .reservedField := by
  refine decode_reserved BitVec.extractLsb'_append_eq_left fun hzero => ?_
  have hmask := (zmask_iff_zeroFields _ _).2 hzero
  revert hmask
  cases o <;> decide

/-- A word raises `SelectorRange` by the third test of decoding alone (R88). -/
theorem selector_of_decode_selectorRange {w : Command} (h : decode w = .fault .selectorRange) :
    ∃ o : Opcode, o.code = opField w ∧ o.selMax < (selField w).val := by
  unfold decode at h
  split at h
  · cases h
  · rename_i o ho
    split_ifs at h with _ hs
    · cases h
    · exact ⟨o, (Opcode.ofCode_eq_some_iff _ _).1 ho, hs⟩

/-- Only the four commands with a selector have numbers of four bits that are out of its range (R86). -/
theorem Opcode.hasSelector_of_selMax_lt {o : Opcode} {sel : Sel} (h : o.selMax < sel.val) :
    o = .rds ∨ o = .wrs ∨ o = .rdv ∨ o = .rdo := by
  have hsel := sel.isLt
  cases o with
  | rds | wrs | rdv | rdo => simp
  | fromint | add | sub | mul | div | adv | out | rotr32 | rotr64 | chain | li | lsi | mv =>
    simp only [Opcode.selMax] at h
    omega

/-- The word of a command whose selector is out of range is a word of its opcode that raises `SelectorRange` (R86). -/
theorem exists_selectorRange_word {i : Instr} (hi : i.wf = false) :
    ∃ w, opField w = i.opcode.code ∧ decode w = .fault .selectorRange :=
  ⟨encode i, (encodeFields_all i).1, decode_encode_selectorRange hi⟩

/-- The word of a command can fault only by its selector (R82, R85, R86). -/
theorem selectorRange_of_decode_encode {i : Instr} {c : DecodeFault} (h : decode (encode i) = .fault c) :
    c = .selectorRange ∧ i.wf = false := by
  cases hi : i.wf with
  | true => cases (decode_encode hi).symm.trans h
  | false =>
    cases (decode_encode_selectorRange hi).symm.trans h
    exact ⟨rfl, rfl⟩

/-- Settles O5: a legal and a reserved word for each row, and the words whose selector is out of range. -/
theorem faultKindsByCommand : Obligations.FaultKindsByCommand := by
  refine ⟨fun o => ⟨decodes_matchWord o, _, BitVec.extractLsb'_append_eq_left, decode_ones_reserved o⟩, ?_, ?_,
    fun _ _ => selectorRange_of_decode_encode⟩
  · intro w h
    obtain ⟨o, hop, hs⟩ := selector_of_decode_selectorRange h
    rw [← hop]
    rcases Opcode.hasSelector_of_selMax_lt hs with rfl | rfl | rfl | rfl <;> decide
  · rintro o (rfl | rfl | rfl | rfl)
    · exact exists_selectorRange_word (i := .rds 0 15) rfl
    · exact exists_selectorRange_word (i := .wrs 15 0) rfl
    · exact exists_selectorRange_word (i := .rdv 0 15) rfl
    · exact exists_selectorRange_word (i := .rdo 0 15) rfl

/-! ## Legal commands do not fault -/

/-- An effect leaves the unit as busy or idle as it was, but for the wait of a `CHAIN` with a silent engine (R60). -/
theorem Effect.busy_eq_or_waits {i : Instr} {s t : State} (e : Effect i s t) :
    t.busy = s.busy ∨ i = .chain ∧ s.engine = .silent := by
  cases e with
  | register | seed | draw => exact .inl rfl
  | waits hi he => exact .inr ⟨hi, he⟩

/-- Settles O40, from the shapes an effect can have. -/
theorem legalCommandsNeverFault : Obligations.LegalCommandsNeverFault := by
  intro i s hi
  obtain ⟨t, ht, e⟩ := exec_effect i s hi
  refine ⟨t, ht, e.sameControl, State.faulted_eq_of_status e.sameControl.status, fun h => ?_, ?_⟩
  · exact e.busy_eq_or_waits.resolve_right fun ⟨hi, he⟩ => h.elim (· hi) (· he)
  · rintro rfl he
    cases ht.symm.trans (execChain_silent he)
    rfl

/-! ## Fault entry -/

/-- A word that faults, issued to an idle, unfaulted unit, is the entry into the faulted state (R203). -/
theorem step_issue_faults {s : State} {w : Command} {c : DecodeFault} {rest : List HostMove}
    (hh : s.host = .issue w :: rest) (hb : s.busy = false) (hf : s.faulted = false) (hd : decode w = .fault c) :
    step s = .next (s.moveMade.takeFault c w) := by
  simp [step_issue_accepts hh hb hf, accept, hd]

/-- Settles O37: fault entry writes the two control registers and nothing else. -/
theorem faultEntryRecordsWord : Obligations.FaultEntryRecordsWord := by
  intro s w c rest hh hb hf hd
  have hfault : (s.moveMade.takeFault c w).faulted = true := State.takeFault_faulted _ _ _
  exact ⟨s.moveMade.takeFault c w, step_issue_faults hh hb hf hd, hfault, (statusWord_values c).2, rfl, hfault,
    by cases c <;> rfl, ⟨⟨rfl, rfl⟩, ⟨rfl, rfl⟩, ⟨rfl, rfl, rfl, rfl⟩⟩, rfl, hb, rfl, rfl, by simp [hh]⟩

/-! ## The faulted unit -/

/-- The faulted unit refuses a command, whatever its word (R53, R205). -/
theorem step_issue_faulted {s : State} {w : Command} {rest : List HostMove} (hh : s.host = .issue w :: rest)
    (hb : s.busy = false) (hf : s.faulted = true) : step s = .next s.moveMade := by
  simp [step_of_host hh, hostMove, issueCommand, hb, hf]

/-- The faulted unit ignores a host write that the port has (R56, R205). -/
theorem step_write_faulted {s : State} {sp : Space} {i : Nat} {v : Word} {rest : List HostMove}
    (hh : s.host = .write sp i v :: rest) (hb : s.busy = false) (hf : s.faulted = true)
    (hi : (sp = .X ∧ i < 16) ∨ (sp = .S ∧ i < 4)) : step s = .next s.moveMade := by
  rcases hi with ⟨rfl, hi⟩ | ⟨rfl, hi⟩
  · simp [step_of_host hh, hostMove, hostWrite, unlessFaulted, hb, hf, hi]
  · simp [step_of_host hh, hostMove, hostWrite, unlessFaulted, hb, hf, hi]

/-- The same unit: only the host's moves and what the host has read may differ, and they are no part of it (R54). -/
def SameUnit (s t : State) : Prop :=
  ∃ moves values, t = { s with host := moves, received := values }

theorem SameUnit.refl (s : State) : SameUnit s s := ⟨s.host, s.received, rfl⟩

theorem SameUnit.trans {s t u : State} (h : SameUnit s t) (h' : SameUnit t u) : SameUnit s u := by
  obtain ⟨_, _, rfl⟩ := h
  obtain ⟨moves, values, rfl⟩ := h'
  exact ⟨moves, values, rfl⟩

theorem SameUnit.faulted_eq {s t : State} (h : SameUnit s t) : t.faulted = s.faulted := by
  obtain ⟨_, _, rfl⟩ := h
  rfl

/-- No move but reset does anything to the faulted unit (R205). -/
theorem MoveEffect.sameUnit_of_faulted {m : HostMove} {s t : State} (e : MoveEffect s m t) (hf : s.faulted = true)
    (hm : m ≠ .reset) : SameUnit s t := by
  cases e with
  | read sp i v => exact ⟨s.host.tail, s.received ++ [v], rfl⟩
  | ignored | refused => exact ⟨s.host.tail, s.received, rfl⟩
  | writeX _ _ _ hno | writeS _ _ _ hno | faults _ _ _ hno | runs _ _ _ _ hno =>
    exact absurd (hno.symm.trans hf) (by decide)
  | reset => exact absurd rfl hm

/-- No step but a reset does anything to the faulted unit (R205). -/
theorem step_sameUnit_of_faulted {s t : State} (hf : s.faulted = true) (hm : s.host.head? ≠ some .reset)
    (h : step s = .next t) : SameUnit s t := by
  rcases step_effect h with ⟨-, rfl, -⟩ | ⟨m, rest, hh, e⟩
  · exact .refl _
  · exact e.sameUnit_of_faulted hf fun hreset => hm (by simp [hh, hreset])

/-- Settles O38, one move of the host after the other. -/
theorem faultedUnitRefuses : Obligations.FaultedUnitRefuses := by
  intro s m rest hh hb hf
  refine ⟨?_, ?_, ?_, ?_, ?_⟩
  · rintro w rfl
    rw [step_issue_faulted hh hb hf, State.moveMade_of_host hh]
  · rintro sp i v rfl hi
    rw [step_write_faulted hh hb hf hi, State.moveMade_of_host hh]
  · rintro sp i v rfl hv
    rw [step_read hh hb hv, State.moveMade_of_host (s := s.receive v) hh]
    rfl
  · intro t ht hclear
    by_contra hm
    have hsame := step_sameUnit_of_faulted hf (by simpa [hh] using hm) ht
    exact absurd (hclear.symm.trans (hsame.faulted_eq.trans hf)) (by decide)
  · rintro rfl
    exact ⟨_, step_reset hh, State.afterReset_faulted _⟩

/-! ## Runs without a reset -/

/-- What every step but a reset keeps, every run keeps in which the host makes no reset. -/
theorem run_keeps_of_no_reset {P : State → Prop}
    (hstep : ∀ s t, P s → s.host.head? ≠ some .reset → step s = .next t → P t) (k : Nat) {s t : State} (hs : P s)
    (hm : HostMove.reset ∉ s.host.take k) (h : Host.Core.run Sys2Proof.core k s = .next t) : P t := by
  induction k generalizing s with
  | zero => cases h; exact hs
  | succ k ih =>
    obtain ⟨u, hu, hrun⟩ := (run_succ_iff k s t).1 h
    have hsplit : s.host.head? ≠ some .reset ∧ HostMove.reset ∉ s.host.tail.take k := by
      cases hh : s.host with
      | nil => simp
      | cons m rest => simpa [hh, eq_comm] using hm
    refine ih (hstep s u hs hsplit.1 hu) ?_ hrun
    rw [step_host_tail hu]
    exact hsplit.2

/-- Settles O39: the whole unit stays as it is, by induction over the run. -/
theorem firstFaultStaysOnRecord : Obligations.FirstFaultStaysOnRecord := by
  intro k s t hb hf hm h
  have hsame : SameUnit s t := by
    refine run_keeps_of_no_reset (fun u v hu hreset hv => ?_) k (.refl s) hm h
    exact hu.trans (step_sameUnit_of_faulted (hu.faulted_eq.trans hf) hreset hv)
  obtain ⟨_, _, rfl⟩ := hsame
  exact ⟨hf, ⟨rfl, rfl⟩, ⟨⟨rfl, rfl⟩, ⟨rfl, rfl⟩, ⟨rfl, rfl, rfl, rfl⟩⟩, hb, rfl⟩

/-! ## Programs with a word that faults -/

/-- The host is about to issue commands of which one faults, and only all of them would bring the index to `n`. -/
def State.FaultAhead (n : Nat) (s : State) : Prop :=
  ∃ (ws : List Command) (rest : List HostMove),
    s.host = ws.map .issue ++ rest ∧ (∃ w ∈ ws, ∃ c, decode w = .fault c) ∧ s.ci + ws.length ≤ n

/-- The index is short of `n` while the word that faults is still to come (R27). -/
theorem State.FaultAhead.ci_lt {n : Nat} {s : State} (h : s.FaultAhead n) : s.ci < n := by
  obtain ⟨ws, rest, -, ⟨w, hw, -⟩, hci⟩ := h
  have := List.length_pos_of_mem hw
  omega

/-- A step issues the next command: it faults or finds the unit faulted, or the word that faults is another one, and
the index has advanced by one at most (R27, R203). -/
theorem State.FaultAhead.step {n : Nat} {s t : State} (h : s.FaultAhead n) (hs : step s = .next t) :
    t.faulted = true ∨ t.FaultAhead n := by
  obtain ⟨ws, rest, hh, ⟨w, hw, c, hd⟩, hci⟩ := h
  cases ws with
  | nil => cases hw
  | cons v ws =>
    have e : MoveEffect s (.issue v) t := hostMove_effect (step_of_host hh ▸ hs)
    cases e with
    | refused _ _ hf => exact .inl hf
    | faults => exact .inl (State.takeFault_faulted _ _ _)
    | runs _ i u _ _ hi _ _ ht =>
      obtain ⟨hhost, -, -, hu⟩ := ht.sameHost
      have hmem : w ∈ ws := (List.mem_cons.1 hw).resolve_left fun hv => by
        rw [hv, hi] at hd
        cases hd
      have hstep : u.commandDone.ci ≤ s.ci + 1 := by
        rw [State.commandDone_ci, hu, State.moveMade_ci]
        split <;> omega
      refine .inr ⟨ws, rest, by simp [hhost, hh], ⟨w, hmem, c, hd⟩, ?_⟩
      rw [List.length_cons] at hci
      omega

/-- Settles O44: without a reset the unit is faulted, or the word that faults is still to come. -/
theorem faultingProgramHasNoGoodEnd : Obligations.FaultingProgramHasNoGoodEnd := by
  intro prog more k s t hfault hm h
  have hstart : (s.withProgram prog more).FaultAhead prog.length := ⟨prog, more, rfl, hfault, by simp⟩
  have hend : t.faulted = true ∨ t.FaultAhead prog.length := by
    refine run_keeps_of_no_reset (P := fun u => u.faulted = true ∨ u.FaultAhead prog.length) ?_ k (.inr hstart) hm h
    rintro u v (hf | hahead) hreset hv
    · exact .inl ((step_sameUnit_of_faulted hf hreset hv).faulted_eq.trans hf)
    · exact hahead.step hv
  rcases hend with hf | hahead
  · simp [State.goodEnd, hf]
  · simp [State.goodEnd, hahead.ci_lt.ne]

/-! ## The idle unit -/

/-- Settles O45: with no move of the host, an idle unit has nothing to do. -/
theorem idleUnitKeepsState : Obligations.IdleUnitKeepsState := by
  intro s hh hb
  simp [step, hh, noMove, hb]

end Sys2Proof.Machine
end

section
/-! Reset and the ends of runs (70_reset_and_hazards.md R230 to R243): what reset leaves, two seed writes in either
order, and a program of legal commands run to its good end. -/

namespace Sys2Proof.Machine

/-! ## Programs of legal commands -/

/-- No move of the host changes the hash engine (R234). -/
theorem MoveEffect.engine_eq {m : HostMove} {s t : State} (e : MoveEffect s m t) : t.engine = s.engine := by
  cases e with
  | runs _ _ _ _ _ _ _ _ ht =>
    obtain ⟨-, -, hengine, -⟩ := ht.sameHost
    simp [hengine]
  | read | ignored | writeX | writeS | refused | faults | reset => rfl

/-- No step changes the hash engine (R234). -/
theorem step_engine {s t : State} (h : step s = .next t) : t.engine = s.engine := by
  rcases step_effect h with ⟨-, rfl, -⟩ | ⟨m, rest, -, e⟩
  · rfl
  · exact e.engine_eq

/-- The unit is ready for a command that completes: it is idle and unfaulted and its hash engine answers (R53,
R243). -/
structure State.Ready (s : State) : Prop where
  idle : s.busy = false
  unfaulted : s.faulted = false
  answers : s.engine ≠ .silent

/-- A legal command issued to a unit that is ready completes, and leaves it ready for the next one (R27, R243). -/
theorem State.Ready.step {s : State} (hs : s.Ready) {i : Instr} {rest : List HostMove} (hi : i.wf = true)
    (hh : s.host = .issue (encode i) :: rest) :
    ∃ t, Machine.step s = .next t ∧ t.Ready ∧ t.ci = s.ci + 1 ∧ t.host = rest := by
  obtain ⟨-, -, hcompletes⟩ := commandIndexCountsCommands s (encode i) rest hh hs.idle
  obtain ⟨t, ht, hci, hidle, hunfaulted, hhost⟩ := hcompletes hs.unfaulted ⟨i, decode_encode hi⟩ hs.answers
  exact ⟨t, ht, ⟨hidle, hunfaulted, (step_engine ht).symm ▸ hs.answers⟩, hci, hhost⟩

/-- A program of legal commands issued to a unit that is ready runs in as many steps as it has commands, each of which
advances the command index by one (R27, R242). -/
theorem State.Ready.run {s : State} (hs : s.Ready) {is : List Instr} {more : List HostMove}
    (his : ∀ i ∈ is, i.wf = true) (hh : s.host = (is.map encode).map .issue ++ more) :
    ∃ t, Host.Core.run Sys2Proof.core is.length s = .next t ∧ t.Ready ∧ t.ci = s.ci + is.length ∧ t.host = more := by
  induction is generalizing s with
  | nil => exact ⟨s, rfl, hs, rfl, hh⟩
  | cons i is ih =>
    obtain ⟨hi, hrest⟩ := List.forall_mem_cons.1 his
    obtain ⟨u, hstep, hu, hci, hhost⟩ := hs.step hi hh
    obtain ⟨t, hrun, ht, hcount, hmore⟩ := ih hu hrest hhost
    refine ⟨t, (run_succ_iff is.length s t).2 ⟨u, hstep, hrun⟩, ht, ?_, hmore⟩
    rw [hcount, hci, List.length_cons]
    omega

/-- Settles O43: the unit is ready when the program begins, and its index begins at 0. -/
theorem legalProgramReachesGoodEnd : Obligations.LegalProgramReachesGoodEnd := by
  intro is more s his hb hf he
  have hs : (s.withProgram (is.map encode) more).Ready := ⟨hb, hf, he⟩
  obtain ⟨t, hrun, ht, hci, hmore⟩ := hs.run his rfl
  exact ⟨t, hrun, by simp [State.goodEnd, State.idle, hci, ht.idle, ht.unfaulted], hmore⟩

/-! ## Two seed writes -/

/-- Writes to two different words of the seed commute (R235). -/
theorem State.writeS_comm (s : State) {v w : Fin 4} (a b : Word) (h : v ≠ w) :
    (s.writeS v a).writeS w b = (s.writeS w b).writeS v a := by
  have hvw : v.val ≠ w.val := Fin.val_ne_of_ne h
  simp [State.writeS, Vector.set_comm _ _ hvw]

/-- The end of a command looks at nothing that a seed write changes (R27). -/
theorem State.commandDone_writeS (s : State) (w : Fin 4) (a : Word) :
    s.commandDone.writeS w a = (s.writeS w a).commandDone :=
  apply_ite (State.writeS · w a) _ _ _

/-- `WRS` with its selector in range (R165). -/
theorem exec_wrs {sel : Sel} (h : sel.val ≤ 3) (rs1 : RegIdx) (s : State) :
    exec (.wrs sel rs1) s = .next (s.writeS ⟨sel.val, by omega⟩ s.x[rs1]) :=
  execWrs_inRange rs1 s h

/-- Two seed writes run one after the other complete: both words are written, then both commands are counted (R165,
R27). -/
theorem runCommands_two_wrs {v w : Sel} (a b : RegIdx) (s : State) (hv : v.val ≤ 3) (hw : w.val ≤ 3) :
    runCommands [.wrs v a, .wrs w b] s = .next ((s.writeS ⟨v.val, by omega⟩ s.x[a]).writeS ⟨w.val, by omega⟩
      s.x[b]).commandDone.commandDone := by
  rw [runCommands_cons (exec_wrs hv a s), runCommands_cons (exec_wrs hw b _), State.commandDone_writeS]
  simp [runCommands]

/-- Settles O31: the two seed writes commute as writes. -/
theorem seedWritesCommute : Obligations.SeedWritesCommute := by
  intro v w a b s hv hw hne
  refine ⟨_, runCommands_two_wrs a b s hv hw, ?_⟩
  rw [runCommands_two_wrs b a s hw hv, State.writeS_comm]
  exact fun h => hne (Fin.ext (Fin.mk.inj h).symm)

/-! ## Reset -/

/-- After a reset no word is marked as written (R32, R230). -/
theorem Written.none_marks : (∀ r : RegIdx, Written.none.x[r] = false) ∧
    (∀ w : Fin 4, Written.none.S[w] = false ∧ Written.none.V[w] = false) ∧ ∀ k : Fin 8, Written.none.O[k] = false := by
  simp [Written.none]

/-- After a reset `CAUSE` is 0 (R33, R230). -/
theorem State.afterReset_cause (s : State) : s.afterReset.cause = 0 := by
  simp [State.cause]

/-- Settles O50: a reset is a move from every state, and gives the reset state. -/
theorem resetClearsUnit : Obligations.ResetClearsUnit := by
  intro s rest hh
  exact ⟨s.moveMade.afterReset, step_reset hh, rfl, rfl, State.afterReset_faulted _, State.afterReset_cause _,
    State.afterReset_faulted _, rfl, by simp [hh], Written.none_marks⟩

end Sys2Proof.Machine
end
